-- ==== Sys2Proof/Word.lean ====
section
/-! DEFINITION. The word types of the engine (spec/00_scope.md R6, R9): 32-bit hash words and bytes.
Every value of the spec is unsigned. -/

namespace Sys2Proof

/-- A `bits32` value (R9): the hash word, and the width of the bus (R7). -/
abbrev Word := BitVec 32

/-- One byte of a message or of a point encoding. -/
abbrev Byte := BitVec 8

end Sys2Proof
end

