-- ==== Sys2Proof/Syntax.lean ====
section
/-! DEFINITION. The seven commands of the engine (spec/30_encoding.md R71, spec/opcode_table.json), the reasons a
command word is illegal (R75), and the notation of host programs (R78). -/

namespace Sys2Proof

/-- MODE of PT_ENCODE (R73): 0 nocompress, 1 compress, 2 mix; the value 3 is illegal and has no constructor. -/
inductive EncMode where
  | nocompress
  | compress
  | mix
deriving DecidableEq, Repr

/-- The commands, one constructor per row of the opcode table (R71). No command names a register: every operand is a
fixed register (R74). -/
inductive Instr where
  /-- NOP (R151). -/
  | nop
  /-- SM3_INIT (R94). -/
  | sm3Init
  /-- SM3_WRITE nb (R95): `nb` bytes of DIN, 1 to 4 (R72). -/
  | sm3Write (nb : Nat)
  /-- SM3_SUM (R96). -/
  | sm3Sum
  /-- SM3_COMPRESS (R97). -/
  | sm3Compress
  /-- PT_DECODE (R126). -/
  | ptDecode
  /-- PT_ENCODE mode (R127). -/
  | ptEncode (mode : EncMode)
deriving DecidableEq, Repr

/-- Why a command word is illegal: the six conditions of R75, in the order in which `decode` of R76 tests them. All
of them complete with the one error ILLEGAL_COMMAND (R152). -/
inductive IllegalReason where
  /-- c[31:14] ≠ 0 or c[11:10] ≠ 0. -/
  | reservedBits
  /-- c[9:8] ≠ 0 and OP is not SM3_WRITE. -/
  | nbm1OfOtherOp
  /-- c[13:12] ≠ 0 and OP is not PT_ENCODE. -/
  | modeOfOtherOp
  /-- OP is PT_ENCODE and MODE is 3. -/
  | modeReserved
  /-- OP is none of the seven values. -/
  | unknownOp
deriving DecidableEq, Repr

/-- The value of `st OFF, VAL` (R78): a literal or a host variable (log 7). -/
inductive HostVal where
  | imm (w : Word)
  | var (t : Fin 8)
deriving DecidableEq, Repr

/-- The host operations of R78. A label is a number. The two last constructors are no lines of R78: they are a bus
access at any bus address and of any width in bytes, as a platform's host may issue one (R50, R54). -/
inductive HostOp where
  /-- `st OFF, VAL`: MemWrite(OFF, 4, VAL). -/
  | st (off : Nat) (val : HostVal)
  /-- `ld tN, OFF`: tN <- MemRead(OFF, 4). -/
  | ld (t : Fin 8) (off : Nat)
  /-- `li tN, IMM`. -/
  | li (t : Fin 8) (imm : Word)
  /-- `andi tN, tM, IMM`. -/
  | andi (t m : Fin 8) (imm : Word)
  /-- `addi tN, tM, IMM`: modulo 2^32. -/
  | addi (t m : Fin 8) (imm : Word)
  /-- `bnez tN, L`. -/
  | bnez (t : Fin 8) (label : Nat)
  /-- `beqz tN, L`. -/
  | beqz (t : Fin 8) (label : Nat)
  /-- `j L`. -/
  | j (label : Nat)
  /-- `halt`: the host's run ends. -/
  | halt
  /-- A bus write of `bytes` bytes at a bus address. -/
  | busWrite (addr bytes : Nat) (val : HostVal)
  /-- A bus read of `bytes` bytes at a bus address. -/
  | busRead (t : Fin 8) (addr bytes : Nat)
deriving DecidableEq, Repr

/-- A line of a host program: the labels it defines (`L:`, R78) and its operation. DESIGN CHOICE: a label belongs to the
operation after it; `L:` with none after it, at the end of a program, is no term (log 7). -/
structure HostLine where
  labels : List Nat
  op : HostOp
deriving DecidableEq, Repr

end Sys2Proof
end

