-- ==== Sys2Proof/WellFormed.lean ====
section
/-! DEFINITION. Which terms of `Instr` are commands of the engine: the operands an encoding can hold
(spec/30_encoding.md R72, R73). -/

namespace Sys2Proof

/-- SM3_WRITE takes 1, 2, 3 or 4 bytes (R72: nb = NBM1 + 1 with a 2-bit field). Every other operand is well-formed by
its type: MODE has exactly its three legal values (R73). -/
def Instr.wellFormed : Instr → Bool
  | .nop => true
  | .sm3Init => true
  | .sm3Write nb => 1 ≤ nb && nb ≤ 4
  | .sm3Sum => true
  | .sm3Compress => true
  | .ptDecode => true
  | .ptEncode _ => true

end Sys2Proof
end

