-- ==== Sys2Proof/Decode.lean ====
section
/-! DEFINITION. The decoder of command words (spec/30_encoding.md R70 to R77), total on all 2^32 words and rejecting
by name, and the encoder (R78). -/

namespace Sys2Proof

/-- OP, bits 7:0 (R70). -/
def Field.op (c : Word) : BitVec 8 := c.extractLsb' 0 8
/-- NBM1, bits 9:8 (R70). -/
def Field.nbm1 (c : Word) : BitVec 2 := c.extractLsb' 8 2
/-- The reserved bits 11:10 (R70). -/
def Field.reservedLow (c : Word) : BitVec 2 := c.extractLsb' 10 2
/-- MODE, bits 13:12 (R70). -/
def Field.mode (c : Word) : BitVec 2 := c.extractLsb' 12 2
/-- The reserved bits 31:14 (R70). -/
def Field.reservedHigh (c : Word) : BitVec 18 := c.extractLsb' 14 18

/-- The MODE field of PT_ENCODE (R73). -/
def decodeMode (m : BitVec 2) : Except IllegalReason EncMode :=
  if m = 0 then .ok .nocompress
  else if m = 1 then .ok .compress
  else if m = 2 then .ok .mix
  else .error .modeReserved

/-- `decode` of R76, check by check in its order. -/
def decode (c : Word) : Except IllegalReason Instr :=
  if Field.reservedHigh c ≠ 0 ∨ Field.reservedLow c ≠ 0 then .error .reservedBits
  else if Field.op c ≠ 0x02 ∧ Field.nbm1 c ≠ 0 then .error .nbm1OfOtherOp
  else if Field.op c ≠ 0x11 ∧ Field.mode c ≠ 0 then .error .modeOfOtherOp
  else if Field.op c = 0x00 then .ok .nop
  else if Field.op c = 0x01 then .ok .sm3Init
  else if Field.op c = 0x02 then .ok (.sm3Write ((Field.nbm1 c).toNat + 1))
  else if Field.op c = 0x03 then .ok .sm3Sum
  else if Field.op c = 0x04 then .ok .sm3Compress
  else if Field.op c = 0x10 then .ok .ptDecode
  else if Field.op c = 0x11 then (decodeMode (Field.mode c)).map .ptEncode
  else .error .unknownOp

/-- A command word put together from its fields (R70); the reserved fields are 0. -/
def commandWord (op : BitVec 8) (nbm1 mode : BitVec 2) : Word :=
  0#18 ++ mode ++ 0#2 ++ nbm1 ++ op

/-- The MODE field that selects a mode (R73). -/
def encodeMode : EncMode → BitVec 2
  | .nocompress => 0
  | .compress => 1
  | .mix => 2

/-- The word of a command (R71, R78). -/
def encode : Instr → Word
  | .nop => commandWord 0x00 0 0
  | .sm3Init => commandWord 0x01 0 0
  | .sm3Write nb => commandWord 0x02 (BitVec.ofNat 2 (nb - 1)) 0
  | .sm3Sum => commandWord 0x03 0 0
  | .sm3Compress => commandWord 0x04 0 0
  | .ptDecode => commandWord 0x10 0 0
  | .ptEncode mode => commandWord 0x11 0 (encodeMode mode)

/-- The command word among the low `nbits` bits of a number, bits numbered as the opcode table numbers them. There is
one command length, 32 bits (R77); a shorter word is filled with zeros. -/
def tableWord (nbits w : Nat) : Word := BitVec.ofNat 32 (w % 2 ^ nbits)

/-- The instruction the decoder reads from a word of the opcode table; `none` where it refuses. -/
def decodeTableWord (nbits w : Nat) : Option Instr :=
  match decode (tableWord nbits w) with
  | .ok i => some i
  | .error _ => none

end Sys2Proof
end

