-- ==== Sys2Proof/Config.lean ====
section
/-! DEFINITION. What an implementation or a platform fixes and the spec leaves open (spec/00_scope.md R8,
spec/93_implementation_defined.md section 1), and the free values. The opaque constants have no body: no proof can
see their values, so whatever is proved holds for each of them. -/

namespace Sys2Proof

/-- A free 32-bit value ("draw", R58, U1, U2), applied to the instance number and to that instance's counter
`State.draws`: fresh at each read, and free of what any other instance reads (log 3). -/
opaque Config.freeWord : Nat → Nat → Word

/-- `LATENCY` (R8, R197, U5): how many steps of the host may still fall between the acceptance of a command and its
completion. Finite because it is a natural number; free at each issue of each instance, being applied to the instance
number and to that instance's counter `State.draws`. The completion is a step of its own after the acceptance, which is
the "at least 1" of R8 (log 2). -/
opaque Config.latency : Nat → Nat → Nat

/-- How many multiples of 0x400 are left free below an instance's window and above the one before it (R8, U6;
log 12). -/
opaque Config.windowGap : Nat → Nat

/-- The size of the register window in bytes (R7, R50). -/
def Config.windowBytes : Nat := 0x400

/-- Which multiple of 0x400 the base of an instance's window is: every instance has its own window (R8), and DESIGN
CHOICE: the instances are numbered in the order of their bases (log 12). -/
def Config.engineBaseIndex : Nat → Nat
  | 0 => Config.windowGap 0
  | k + 1 => Config.engineBaseIndex k + 1 + Config.windowGap (k + 1)

/-- `ENGINE_BASE` of an instance (R8): the bus address of its window's offset 0, a multiple of 0x400. -/
def Config.engineBase (inst : Nat) : Nat := Config.windowBytes * Config.engineBaseIndex inst

/-- `INSTANCES` beyond the first (R8, U7): how many more engines a platform has (log 13). -/
opaque Config.moreInstances : Nat

/-- `INSTANCES` (R8): at least 1. -/
def Config.instances : Nat := Config.moreInstances + 1

end Sys2Proof
end

