-- ==== Sys2Proof/Machine/Constants.lean ====
section
/-! DEFINITION. The hard-wired constants (spec/10_state.md R41): the SM3 initial value, the ID, the largest message
length and the SM2 curve parameters. None is state and no command changes one. -/

namespace Sys2Proof.Machine

/-- The SM3 initial value IV[0..7] (40_sm3.md R80). -/
def iv : Vector Word 8 :=
  #v[0x7380166f, 0x4914b2b9, 0x172442d7, 0xda8a0600, 0xa96f30bc, 0x163138aa, 0xe38dee4d, 0xb0fb0e4e]

/-- The value of the ID register, ASCII "SM32" (10_state.md R27). -/
def idValue : Word := 0x534D3332

/-- MAX_LEN = 2^61 − 1, the largest accepted byte count (00_scope.md R7, 40_sm3.md R95). -/
def maxLen : Nat := 2 ^ 61 - 1

/-- The field prime p of the SM2 curve (41_sm2_point.md R120). -/
def Curve.p : Nat := 0xFFFFFFFEFFFFFFFFFFFFFFFFFFFFFFFFFFFFFFFF00000000FFFFFFFFFFFFFFFF
/-- The coefficient a (R120). -/
def Curve.a : Nat := 0xFFFFFFFEFFFFFFFFFFFFFFFFFFFFFFFFFFFFFFFF00000000FFFFFFFFFFFFFFFC
/-- The coefficient b (R120). -/
def Curve.b : Nat := 0x28E9FA9E9D9F5E344D5A9E4BCF6509A7F39789F515AB8F92DDBCBD414D940E93
/-- The group order n (R120); no command reads it. -/
def Curve.n : Nat := 0xFFFFFFFEFFFFFFFFFFFFFFFFFFFFFFFF7203DF6B21C6052B53BBF40939D54123
/-- The abscissa of the generator G (R120); no command reads it. -/
def Curve.gx : Nat := 0x32C4AE2C1F1981195F9904466A39C9948FE30BBFF2660BE1715A4589334C74C7
/-- The ordinate of the generator G (R120); no command reads it. -/
def Curve.gy : Nat := 0xBC3736A2F4F6779C59BDCEE36B692153D0A9877CC62A474002DF32E52139F0A0
/-- The cofactor h (R120); no command reads it. -/
def Curve.h : Nat := 1

end Sys2Proof.Machine
end

