-- ==== Sys2Proof/Machine/State.lean ====
section
/-! DEFINITION. The state of the engine (spec/10_state.md, spec/70_reset_and_hazards.md R190), of the host agent
(spec/30_encoding.md R78) and of the outside world's events; the reasons a step can stop; the state after reset. -/

namespace Sys2Proof.Machine

/-- What the outside world does to the engine in one step, besides the host (log 9, 10). -/
inductive EnvEvent where
  /-- Nothing. -/
  | quiet
  /-- The reset input is asserted and released between two operations of the host (70_reset_and_hazards.md R191): a
  step of its own. -/
  | resetBetween
  /-- The reset input is asserted while the host performs its next operation (R191). -/
  | resetHeld
  /-- The power goes away between two operations of the host (60_exceptions.md R184): a step of its own. -/
  | powerLoss
deriving DecidableEq, Repr

/-- The events in which the reset input is asserted. -/
def EnvEvent.isReset : EnvEvent → Bool
  | .quiet => false
  | .resetBetween => true
  | .resetHeld => true
  | .powerLoss => false

/-- The host agent (10_state.md R20) running a program in the notation of 30_encoding.md R78. -/
structure HostAgent where
  /-- The program, line by line. -/
  prog : List HostLine
  /-- The index of the line the host performs next. -/
  pc : Nat
  /-- The host variables t0..t7. -/
  vars : Vector Word 8
  /-- The host has executed `halt` (70_reset_and_hazards.md R198). -/
  halted : Bool
deriving DecidableEq, Repr

/-- The whole machine. STATUS.BUSY and STATUS.BUFCNT have no field: they are views of `pending` and of `buf`
(10_state.md R32, R35; log 15). -/
structure State where
  /-- V[0..7], the chaining registers (R21). -/
  v : Vector Word 8
  /-- DIGEST[0..7] (R22). -/
  digest : Vector Word 8
  /-- BLK[0..15] (R23). -/
  blk : Vector Word 16
  /-- DIN (R24). -/
  din : Word
  /-- LEN, the byte count (R29). -/
  len : BitVec 64
  /-- BUF, the stream buffer (R30). -/
  buf : List Byte
  /-- PX[0..7] (R25). -/
  px : Vector Word 8
  /-- PY[0..7] (R26). -/
  py : Vector Word 8
  /-- PK[0..16], the point-encoding buffer (R36). -/
  pk : Vector Word 17
  /-- PKLEN (R38). -/
  pklen : BitVec 7
  /-- PENDING: nothing, or the one accepted command word (R37). -/
  pending : Option Word
  /-- STATUS.ERR of the last completed command (R33; log 17). -/
  err : Bool
  /-- STATUS.ERRCODE of the last completed command (R33; log 17). -/
  errcode : BitVec 4
  /-- STATUS.BERR (R34). -/
  berr : Bool
  /-- The model's own: steps the host still has before the pending command completes (LATENCY, R8; log 2). -/
  wait : Nat
  /-- The model's own: the counter of free values (log 3). -/
  draws : Nat
  /-- The model's own: power was lost and reset has not been asserted since (R184, U8; log 10). -/
  powerLost : Bool
  /-- The model's own: the outside world's events to come, one per step; none left is the same as quiet (log 9). -/
  env : List EnvEvent
  /-- Which of a platform's instances this engine is (R8, R182): it selects ENGINE_BASE and never changes (log 13). -/
  inst : Nat
  /-- The host agent. -/
  host : HostAgent
deriving DecidableEq, Repr

/-- The error kinds a command can raise (60_exceptions.md R170). -/
inductive ErrorKind where
  | illegalCommand
  | invalidEncoding
  | notOnCurve
  | hashState
deriving DecidableEq, Repr

/-- Why the machine stops with a fault. -/
inductive Fault where
  /-- A host access outside the register window, where no register exists (20_memory.md R50). Raised by the host's
  accesses, never by a command. Safe: the engine's state is not claimed to go on (log 11). -/
  | outsideWindow
deriving DecidableEq, Repr

/-- Why a step has no meaning. None is raised by a command. -/
inductive Refusal where
  /-- An instruction without a meaning: `exec` alone may answer it. Safe. -/
  | notModelled (mnemonic : String)
  /-- A host access that is not 32 bits wide or not word-aligned: "A model refuses them" (20_memory.md R54). Safe. -/
  | unsupportedAccess
  /-- A host access while the reset input is asserted: "a model refuses it" (70_reset_and_hazards.md R191). Safe. -/
  | accessDuringReset
  /-- A step after a loss of power without a reset in between (60_exceptions.md R184, U8 "refuse"). Safe. -/
  | powerLostWithoutReset
  /-- A taken branch of the host to a label its program does not define (30_encoding.md R78; log 7). Safe. -/
  | undefinedLabel
deriving DecidableEq, Repr

/-- The host before it is given a program (log 5). -/
def HostAgent.reset : HostAgent :=
  { prog := [], pc := 0, vars := Vector.replicate 8 0, halted := false }

/-- The machine right after reset: 70_reset_and_hazards.md R190, field by field; the model's own fields and the
host's by log 2, 3, 5, 9, 10. -/
def State.reset : State :=
  { v := iv
    digest := Vector.replicate 8 0
    blk := Vector.replicate 16 0
    din := 0
    len := 0
    buf := []
    px := Vector.replicate 8 0
    py := Vector.replicate 8 0
    pk := Vector.replicate 17 0
    pklen := 0
    pending := none
    err := false
    errcode := 0
    berr := false
    wait := 0
    draws := 0
    powerLost := false
    env := []
    inst := 0
    host := HostAgent.reset }

end Sys2Proof.Machine
end

