-- ==== Sys2Proof/Machine/Flags.lean ====
section
/-! DEFINITION. The STATUS register (spec/10_state.md R31 to R35) and the error codes (spec/60_exceptions.md R170). -/

namespace Sys2Proof.Machine

/-- STATUS.BUSY: 1 exactly when PENDING holds a command (10_state.md R32, R37). -/
def State.busy (s : State) : Bool := s.pending.isSome

/-- STATUS.BUFCNT: |BUF| in six bits (R35). -/
def State.bufcnt (s : State) : BitVec 6 := BitVec.ofNat 6 s.buf.length

/-- The code of an error kind in STATUS.ERRCODE (R170). -/
def ErrorKind.code : ErrorKind → BitVec 4
  | .illegalCommand => 0x1
  | .invalidEncoding => 0x2
  | .notOnCurve => 0x3
  | .hashState => 0x4

/-- STATUS put together from its fields (R31): bits 31:14 and bit 3 read 0. -/
def statusFields (bufcnt : BitVec 6) (errcode : BitVec 4) (berr err busy : Bool) : Word :=
  0#18 ++ bufcnt ++ errcode ++ 0#1 ++ BitVec.ofBool berr ++ BitVec.ofBool err ++ BitVec.ofBool busy

/-- STATUS while no command is pending: every field is exact. -/
def State.status (s : State) : Word := statusFields s.bufcnt s.errcode s.berr s.err s.busy

/-- STATUS while a command is pending: BUSY and BERR are exact, ERR, ERRCODE and BUFCNT are taken from a free word
(R33, R35, R52). -/
def State.busyStatus (s : State) (free : Word) : Word :=
  statusFields (free.extractLsb' 8 6) (free.extractLsb' 4 4) s.berr (free.getLsbD 1) s.busy

end Sys2Proof.Machine
end

