-- ==== Sys2Proof/Machine/Operands.lean ====
section
/-! DEFINITION. The operand forms of the commands: every operand is a fixed register (spec/30_encoding.md R74), and
this file gives the byte and integer views of the registers (spec/00_scope.md R12, spec/20_memory.md R60 to R63). -/

namespace Sys2Proof.Machine

/-- The four bytes of a word, most significant first (R60, R62, R63): byte k is bits 31−8k : 24−8k. -/
def wordBytes (w : Word) : List Byte :=
  [w.extractLsb' 24 8, w.extractLsb' 16 8, w.extractLsb' 8 8, w.extractLsb' 0 8]

/-- `be32` of R12: the big-endian word of four bytes. -/
def be32 (b0 b1 b2 b3 : Byte) : Word := b0 ++ b1 ++ b2 ++ b3

/-- Words 0 to n−1 read big-endian from a byte string; bytes past its end count as 0. -/
def packWords (n : Nat) (bs : List Byte) : Vector Word n :=
  Vector.ofFn fun i : Fin n =>
    be32 (bs.getD (4 * i.val) 0) (bs.getD (4 * i.val + 1) 0) (bs.getD (4 * i.val + 2) 0) (bs.getD (4 * i.val + 3) 0)

/-- The bytes of a register array, word by word, each most significant byte first. -/
def unpackWords {n : Nat} (ws : Vector Word n) : List Byte := ws.toList.flatMap wordBytes

/-- `int` of R12: the big-endian integer value of a byte string. -/
def bytesToNat (bs : List Byte) : Nat := bs.foldl (fun acc b => acc * 256 + b.toNat) 0

/-- The n-byte big-endian encoding of a value modulo 2^(8n): `bytes32` of R12 for n = 32, `bytes8` of R91 for n = 8. -/
def natToBytes (n v : Nat) : List Byte :=
  (List.range n).map fun k => BitVec.ofNat 8 (v / 256 ^ (n - 1 - k))

/-- The message bytes of DIN: the first `nb`, most significant first (R60, R72). -/
def dinBytes (din : Word) (nb : Nat) : List Byte := (wordBytes din).take nb

/-- `PXv` and `PYv` of R61: the 256-bit value of eight words, word 0 most significant. -/
def coordValue (ws : Vector Word 8) : Nat := ws.toList.foldl (fun acc w => acc * 2 ^ 32 + w.toNat) 0

/-- The eight words of a 256-bit value (R126): word i is x[255−32i : 224−32i]. -/
def coordWords (x : Nat) : Vector Word 8 :=
  Vector.ofFn fun i : Fin 8 => BitVec.ofNat 32 (x / 2 ^ (32 * (7 - i.val)))

/-- PKB, the 68 bytes of PK (R36, R62). -/
def State.pkb (s : State) : List Byte := unpackWords s.pk

/-- The digest as the host's 32 bytes (R63, R92): byte 4i + k is DIGEST[i][31−8k : 24−8k]. -/
def State.digestBytes (s : State) : List Byte := unpackWords s.digest

end Sys2Proof.Machine
end

