-- ==== Sys2Proof/Machine/Ops.lean ====
section
/-! DEFINITION. The named operations over the register window and the shared operations of the commands: the register
map (spec/20_memory.md R51), MemRead and MemWrite (R52, R53), the acceptance of a command (R56), and how a command
ends, in success or by `raise` (spec/42_control.md R150, spec/60_exceptions.md R171). There is no trap entry and no
return from one (60_exceptions.md R175, R176): `raise` is the only exception this hardware has. -/

namespace Sys2Proof.Machine

/-- The registers of the window (R51). -/
inductive Reg where
  | id
  | cmd
  | status
  | din
  | lenLo
  | lenHi
  | pklen
  | v (i : Fin 8)
  | digest (i : Fin 8)
  | blk (i : Fin 16)
  | px (i : Fin 8)
  | py (i : Fin 8)
  | pk (i : Fin 17)
  | reserved
deriving DecidableEq, Repr

/-- The register at a word-aligned offset of the window (R51); what the map does not name is reserved (R55). -/
def regAt (off : Nat) : Reg :=
  if off = 0x000 then .id
  else if off = 0x004 then .cmd
  else if off = 0x008 then .status
  else if off = 0x00C then .din
  else if off = 0x010 then .lenLo
  else if off = 0x014 then .lenHi
  else if off = 0x018 then .pklen
  else if _h : 0x020 ≤ off ∧ off < 0x040 then .v ⟨(off - 0x020) / 4, by omega⟩
  else if _h : 0x040 ≤ off ∧ off < 0x060 then .digest ⟨(off - 0x040) / 4, by omega⟩
  else if _h : 0x080 ≤ off ∧ off < 0x0C0 then .blk ⟨(off - 0x080) / 4, by omega⟩
  else if _h : 0x0C0 ≤ off ∧ off < 0x0E0 then .px ⟨(off - 0x0C0) / 4, by omega⟩
  else if _h : 0x0E0 ≤ off ∧ off < 0x100 then .py ⟨(off - 0x0E0) / 4, by omega⟩
  else if _h : 0x100 ≤ off ∧ off < 0x144 then .pk ⟨(off - 0x100) / 4, by omega⟩
  else .reserved

/-- The offset of a register (R51), for which its name stands in a host program (R78). The reserved register stands
for the first reserved offset. -/
def regOffset : Reg → Nat
  | .id => 0x000
  | .cmd => 0x004
  | .status => 0x008
  | .din => 0x00C
  | .lenLo => 0x010
  | .lenHi => 0x014
  | .pklen => 0x018
  | .reserved => 0x01C
  | .v i => 0x020 + 4 * i.val
  | .digest i => 0x040 + 4 * i.val
  | .blk i => 0x080 + 4 * i.val
  | .px i => 0x0C0 + 4 * i.val
  | .py i => 0x0E0 + 4 * i.val
  | .pk i => 0x100 + 4 * i.val

/-- The value of a register while no command is pending (R52): CMD and the reserved offsets read 0, PKLEN is
zero-extended. -/
def readReg (r : Reg) (s : State) : Word :=
  match r with
  | .id => idValue
  | .cmd => 0
  | .status => s.status
  | .din => s.din
  | .lenLo => s.len.extractLsb' 0 32
  | .lenHi => s.len.extractLsb' 32 32
  | .pklen => s.pklen.zeroExtend 32
  | .v i => s.v[i]
  | .digest i => s.digest[i]
  | .blk i => s.blk[i]
  | .px i => s.px[i]
  | .py i => s.py[i]
  | .pk i => s.pk[i]
  | .reserved => 0

/-- MemRead (R52): the value, and the state, in which only the counter of free values may have moved. While a command
is pending every register but ID and STATUS reads as a free word (R58), CMD and the reserved offsets included (log 4).
The word is this instance's own at this value of its counter (log 3). -/
def memRead (r : Reg) (s : State) : Word × State :=
  if s.busy then
    match r with
    | .id => (idValue, s)
    | .status => (s.busyStatus (Config.freeWord s.inst s.draws), { s with draws := s.draws + 1 })
    | _ => (Config.freeWord s.inst s.draws, { s with draws := s.draws + 1 })
  else (readReg r s, s)

/-- Acceptance of a command word (R56): PENDING <- c, BUSY <- 1 (the view), BERR <- 0, in one step. LATENCY is drawn
here, for this instance and this issue (log 2). -/
def accept (c : Word) (s : State) : State :=
  { s with pending := some c, berr := false, wait := Config.latency s.inst s.draws, draws := s.draws + 1 }

/-- What a host write stores while no command is pending (R53). Read-only registers and reserved offsets ignore it
(R55). -/
def writeReg (r : Reg) (w : Word) (s : State) : State :=
  match r with
  | .cmd => accept w s
  | .din => { s with din := w }
  | .pklen => { s with pklen := w.extractLsb' 0 7 }
  | .blk i => { s with blk := s.blk.set i w }
  | .px i => { s with px := s.px.set i w }
  | .py i => { s with py := s.py.set i w }
  | .pk i => { s with pk := s.pk.set i w }
  | .id | .status | .lenLo | .lenHi | .v _ | .digest _ | .reserved => s

/-- MemWrite (R53): while a command is pending the write is dropped and sets BERR (R57). -/
def memWrite (r : Reg) (w : Word) (s : State) : State :=
  if s.busy then { s with berr := true } else writeReg r w s

/-- The registers of the engine at their reset values (70_reset_and_hazards.md R190, R191), a pending command
abandoned. The counter of free values, the outside events, the instance number and the host are not the engine's and stay (log 9). -/
def resetEngine (s : State) : State :=
  { State.reset with draws := s.draws, env := s.env, inst := s.inst, host := s.host }

/-- The successful end of a command (42_control.md R150): ERR <- 0, ERRCODE <- 0, PENDING <- nothing, BUSY <- 0 (the
view); BUFCNT <- |BUF| is a view; BERR stays. -/
def succeed (updated : State) : State :=
  { updated with err := false, errcode := 0, pending := none }

/-- `raise e` (60_exceptions.md R171, 42_control.md R150): every update of the command is discarded, ERR <- 1,
ERRCODE <- code(e), PENDING <- nothing; BERR stays. -/
def raise (e : ErrorKind) (before : State) : State :=
  { before with err := true, errcode := e.code, pending := none }

/-- The completion of a command from what it performed (R150): its updates if it succeeded, `raise` otherwise. -/
def finish (before : State) (performed : Except ErrorKind State) : State :=
  match performed with
  | .ok updated => succeed updated
  | .error e => raise e before

end Sys2Proof.Machine
end

