-- ==== Sys2Proof/Machine/Control.lean ====
section
/-! DEFINITION. NOP and the completion of an illegal word (spec/42_control.md R151, R152). -/

namespace Sys2Proof.Machine

/-- The completion of NOP (R151): nothing but STATUS. -/
def execNop (s : State) : Host.Outcome State Fault Refusal := .next (finish s (.ok s))

/-- The completion of an illegal word (R152): it raises ILLEGAL_COMMAND, always. -/
def completeIllegal (s : State) : Host.Outcome State Fault Refusal := .next (finish s (.error .illegalCommand))

end Sys2Proof.Machine
end

