-- ==== Sys2Proof/Machine/PointCodec.lean ====
section
/-! DEFINITION. The SM2 curve and the point codec (spec/41_sm2_point.md): curve equation, decompression, PT_DECODE and
PT_ENCODE. Coordinates are natural numbers, as R122 says they are compared with p before any reduction. -/

namespace Sys2Proof.Machine

/-- The right-hand side of the curve equation (R121). -/
def rhs (x : Nat) : Nat := (x ^ 3 + Curve.a * x + Curve.b) % Curve.p

/-- ONCURVE(x, y) (R123): both are field elements and y² ≡ rhs(x). -/
def onCurve (x y : Nat) : Bool :=
  x < Curve.p && y < Curve.p && ((y : Int) ^ 2 - (rhs x : Int)) % (Curve.p : Int) == 0

/-- Square and multiply: `acc · base^e mod m` for an exponent below 2^fuel. -/
def powModLoop (m : Nat) : Nat → Nat → Nat → Nat → Nat
  | 0, _, _, acc => acc
  | fuel + 1, base, e, acc =>
    powModLoop m fuel (base * base % m) (e / 2) (if e % 2 = 1 then acc * base % m else acc)

/-- base^e mod m for an exponent below 2^256. -/
def powMod (base e m : Nat) : Nat := powModLoop m 256 (base % m) e (1 % m)

/-- The candidate square root r^((p+1)/4) mod p (R125's informative method; PRESUMED, log 14): a root of r in GF(p)
exactly when r has one. -/
def rootCandidate (r : Nat) : Nat := powMod r ((Curve.p + 1) / 4) Curve.p

/-- The square roots of r in [0, p): y0 and p − y0 where y0 is one, none otherwise (R125). -/
def squareRoots (r : Nat) : List Nat :=
  let y0 := rootCandidate r
  if y0 * y0 % Curve.p = r then [y0, (Curve.p - y0) % Curve.p] else []

/-- The root of parity t among the square roots of a field element (R125): NOT_ON_CURVE if there is no root,
INVALID_ENCODING if there is none of that parity. -/
def selectRoot (roots : List Nat) (t : Nat) : Except ErrorKind Nat :=
  match roots with
  | [] => .error .notOnCurve
  | y0 :: rest =>
    match (y0 :: rest).find? (fun y => y % 2 = t) with
    | none => .error .invalidEncoding
    | some y => .ok y

/-- DECOMPRESS(x, t) (R125): the root of rhs(x) whose parity is t. -/
def decompress (x t : Nat) : Except ErrorKind Nat := selectRoot (squareRoots (rhs x)) t

/-- The point of PT_DECODE's encoding in PKB[0..L), with the checks in the order of R126. -/
def decodePoint (l : Nat) (pkb : List Byte) : Except ErrorKind (Nat × Nat) :=
  let pf := (pkb.getD 0 0).toNat
  let x := bytesToNat ((pkb.drop 1).take 32)
  let y := bytesToNat ((pkb.drop 33).take 32)
  if l = 0 then .error .invalidEncoding
  else if pf = 0x00 then .error .invalidEncoding
  else if pf ∉ [0x02, 0x03, 0x04, 0x06, 0x07] then .error .invalidEncoding
  else if pf ∈ [0x02, 0x03] ∧ l ≠ 33 then .error .invalidEncoding
  else if pf ∈ [0x04, 0x06, 0x07] ∧ l ≠ 65 then .error .invalidEncoding
  else if pf ∈ [0x02, 0x03] then
    if x ≥ Curve.p then .error .notOnCurve
    else (decompress x (pf % 2)).map fun y => (x, y)
  else if pf ∈ [0x06, 0x07] ∧ y % 2 ≠ pf % 2 then .error .invalidEncoding
  else if x ≥ Curve.p ∨ y ≥ Curve.p then .error .notOnCurve
  else if onCurve x y then .ok (x, y)
  else .error .notOnCurve

/-- The byte string E of PT_ENCODE (R127): prefix, bytes32(x), and for two of the modes bytes32(y). -/
def encodePoint (mode : EncMode) (x y : Nat) : List Byte :=
  match mode with
  | .nocompress => [0x04] ++ natToBytes 32 x ++ natToBytes 32 y
  | .compress => [BitVec.ofNat 8 (0x02 + y % 2)] ++ natToBytes 32 x
  | .mix => [BitVec.ofNat 8 (0x06 + y % 2)] ++ natToBytes 32 x ++ natToBytes 32 y

/-- What PT_DECODE performs (R126). -/
def performPtDecode (s : State) : Except ErrorKind State :=
  (decodePoint s.pklen.toNat s.pkb).map fun q => { s with px := coordWords q.1, py := coordWords q.2 }

/-- What PT_ENCODE performs (R127): PKB beyond the encoding is set to zero. -/
def performPtEncode (mode : EncMode) (s : State) : Except ErrorKind State :=
  let e := encodePoint mode (coordValue s.px) (coordValue s.py)
  .ok { s with pk := packWords 17 e, pklen := BitVec.ofNat 7 e.length }

/-- The completion of PT_DECODE (R126, R150). -/
def execPtDecode (s : State) : Host.Outcome State Fault Refusal := .next (finish s (performPtDecode s))

/-- The completion of PT_ENCODE (R127, R150). -/
def execPtEncode (mode : EncMode) (s : State) : Host.Outcome State Fault Refusal :=
  .next (finish s (performPtEncode mode s))

end Sys2Proof.Machine
end

