-- ==== Sys2Proof/Machine/Sm3.lean ====
section
/-! DEFINITION. The SM3 engine (spec/40_sm3.md): the word functions, the message schedule, the round, the compression
function, padding, the hash as a pure function, and the four SM3 commands. -/

namespace Sys2Proof.Machine

/-- ROL (00_scope.md R10): rotate left by n mod 32. -/
def rol (x : Word) (n : Nat) : Word := x.rotateLeft (n % 32)

/-- The round constant T_j (R81). -/
def roundConstant (j : Nat) : Word := if j < 16 then 0x79cc4519 else 0x7a879d8a

/-- FF_j (R82). -/
def ff (j : Nat) (x y z : Word) : Word :=
  if j < 16 then x ^^^ y ^^^ z else (x &&& y) ||| (x &&& z) ||| (y &&& z)

/-- GG_j (R83). -/
def gg (j : Nat) (x y z : Word) : Word :=
  if j < 16 then x ^^^ y ^^^ z else (x &&& y) ||| (~~~x &&& z)

/-- P0 (R84). -/
def perm0 (x : Word) : Word := x ^^^ rol x 9 ^^^ rol x 17

/-- P1 (R85). -/
def perm1 (x : Word) : Word := x ^^^ rol x 15 ^^^ rol x 23

/-- The working registers A..H of one compression (R89). They are no state of the machine (10_state.md R39). -/
structure Working where
  (a b c d e f g h : Word)
deriving DecidableEq, Repr

/-- W[j] from the words before it (R87). -/
def nextW (w : List Word) (j : Nat) : Word :=
  perm1 (w.getD (j - 16) 0 ^^^ w.getD (j - 9) 0 ^^^ rol (w.getD (j - 3) 0) 15)
    ^^^ rol (w.getD (j - 13) 0) 7 ^^^ w.getD (j - 6) 0

/-- The first 16 + k words of the schedule W of a block of 16 words (R87). -/
def expandTo (block : List Word) : Nat → List Word
  | 0 => block
  | k + 1 =>
    let w := expandTo block k
    w ++ [nextW w (16 + k)]

/-- W[0..67] (R87). -/
def expand (block : List Word) : List Word := expandTo block 52

/-- W'[j] (R88). -/
def wPrime (w : List Word) (j : Nat) : Word := w.getD j 0 ^^^ w.getD (j + 4) 0

/-- Round j (R89); the eight assignments are simultaneous. -/
def round (j : Nat) (w : List Word) (s : Working) : Working :=
  let ss1 := rol (rol s.a 12 + s.e + rol (roundConstant j) (j % 32)) 7
  let ss2 := ss1 ^^^ rol s.a 12
  let tt1 := ff j s.a s.b s.c + s.d + ss2 + wPrime w j
  let tt2 := gg j s.e s.f s.g + s.h + ss1 + w.getD j 0
  { a := tt1, b := s.a, c := rol s.b 9, d := s.c, e := perm0 tt2, f := s.e, g := rol s.f 19, h := s.g }

/-- The first k rounds, 0 to k−1 (R90). -/
def rounds (w : List Word) (s : Working) : Nat → Working
  | 0 => s
  | k + 1 => round k w (rounds w s k)

/-- Load (A,B,C,D,E,F,G,H) := V (R90). -/
def Working.load (v : Vector Word 8) : Working :=
  { a := v[0], b := v[1], c := v[2], d := v[3], e := v[4], f := v[5], g := v[6], h := v[7] }

/-- V[i] ⊕ register_i (R90). -/
def Working.mix (v : Vector Word 8) (s : Working) : Vector Word 8 :=
  #v[v[0] ^^^ s.a, v[1] ^^^ s.b, v[2] ^^^ s.c, v[3] ^^^ s.d, v[4] ^^^ s.e, v[5] ^^^ s.f, v[6] ^^^ s.g, v[7] ^^^ s.h]

/-- CF on a block given as its sixteen words W[0..15] (R90; SM3_COMPRESS takes them from BLK, R86). -/
def compressWords (v : Vector Word 8) (block : Vector Word 16) : Vector Word 8 :=
  (rounds (expand block.toList) (Working.load v) 64).mix v

/-- The block parse (R86). -/
def parseBlock (block : List Byte) : Vector Word 16 := packWords 16 block

/-- CF(V, B) for a block of 64 bytes (R90). -/
def cf (v : Vector Word 8) (block : List Byte) : Vector Word 8 := compressWords v (parseBlock block)

/-- The number of zero bytes of the padding: k = (55 − |BUF|) mod 64 over the integers (R91, 00_scope.md R11). -/
def padZeros (n : Nat) : Nat := ((55 - (n : Int)) % 64).toNat

/-- PAD(BUF, LEN) (R91). -/
def pad (buf : List Byte) (len : Nat) : List Byte :=
  buf ++ [0x80] ++ List.replicate (padZeros buf.length) 0 ++ natToBytes 8 (8 * len % 2 ^ 64)

/-- The i-th 64-byte block of a byte string. -/
def blockAt (m : List Byte) (i : Nat) : List Byte := (m.drop (64 * i)).take 64

/-- CF over the first k 64-byte blocks of a byte string, in order (R93). -/
def cfBlocks (v : Vector Word 8) (m : List Byte) : Nat → Vector Word 8
  | 0 => v
  | k + 1 => cf (cfBlocks v m k) (blockAt m k)

/-- The chaining value after the padded tail T, which is one or two blocks (R93, R96). -/
def cfTail (v : Vector Word 8) (t : List Byte) : Vector Word 8 :=
  if t.length = 128 then cf (cf v (t.take 64)) ((t.drop 64).take 64) else cf v (t.take 64)

/-- SM3(M) as the eight words of the digest (R93, R92). -/
def sm3 (m : List Byte) : Vector Word 8 :=
  cfTail (cfBlocks iv m (m.length / 64)) (pad (m.drop (64 * (m.length / 64))) m.length)

/-- One turn of SM3_WRITE's loop (R95): append a byte; when the buffer reaches 64 bytes, compress and empty it. -/
def appendByte (s : State) (b : Byte) : State :=
  let buf := s.buf ++ [b]
  if buf.length = 64 then { s with v := cf s.v buf, buf := [] } else { s with buf := buf }

/-- What SM3_WRITE performs (R95). -/
def performSm3Write (nb : Nat) (s : State) : Except ErrorKind State :=
  if s.len.toNat + nb > maxLen then .error .hashState
  else
    let s' := (dinBytes s.din nb).foldl appendByte s
    .ok { s' with len := s.len + BitVec.ofNat 64 nb }

/-- What SM3_INIT performs (R94). -/
def performSm3Init (s : State) : Except ErrorKind State :=
  .ok { s with v := iv, buf := [], len := 0 }

/-- What SM3_SUM performs (R96). -/
def performSm3Sum (s : State) : Except ErrorKind State :=
  .ok { s with digest := cfTail s.v (pad s.buf s.len.toNat), v := iv, buf := [], len := 0 }

/-- What SM3_COMPRESS performs (R97). -/
def performSm3Compress (s : State) : Except ErrorKind State :=
  .ok { s with v := compressWords s.v s.blk }

/-- The completion of SM3_INIT (R94, R150). -/
def execSm3Init (s : State) : Host.Outcome State Fault Refusal := .next (finish s (performSm3Init s))

/-- The completion of SM3_WRITE nb (R95, R150). -/
def execSm3Write (nb : Nat) (s : State) : Host.Outcome State Fault Refusal := .next (finish s (performSm3Write nb s))

/-- The completion of SM3_SUM (R96, R150). -/
def execSm3Sum (s : State) : Host.Outcome State Fault Refusal := .next (finish s (performSm3Sum s))

/-- The completion of SM3_COMPRESS (R97, R150). -/
def execSm3Compress (s : State) : Host.Outcome State Fault Refusal := .next (finish s (performSm3Compress s))

end Sys2Proof.Machine
end

