-- ==== Sys2Proof/Machine/Dispatch.lean ====
section
/-! DEFINITION. The completion step of a decoded command (spec/42_control.md R150): one arm per command. -/

namespace Sys2Proof.Machine

def exec (i : Instr) (s : State) : Host.Outcome State Fault Refusal :=
  match i with
  | .nop => Sys2Proof.Machine.execNop s
  | .sm3Init => Sys2Proof.Machine.execSm3Init s
  | .sm3Write nb => Sys2Proof.Machine.execSm3Write nb s
  | .sm3Sum => Sys2Proof.Machine.execSm3Sum s
  | .sm3Compress => Sys2Proof.Machine.execSm3Compress s
  | .ptDecode => Sys2Proof.Machine.execPtDecode s
  | .ptEncode mode => Sys2Proof.Machine.execPtEncode mode s

end Sys2Proof.Machine
end

