-- ==== Sys2Proof/Machine/HostAgent.lean ====
section
/-! DEFINITION. The host agent: its bus accesses (spec/20_memory.md R50, R54, R65) and the operations of host programs
(spec/30_encoding.md R78). -/

namespace Sys2Proof.Machine

/-- The value of a host variable. -/
def HostAgent.var (h : HostAgent) (t : Fin 8) : Word := h.vars[t]

/-- tN <- w. -/
def HostAgent.setVar (h : HostAgent) (t : Fin 8) (w : Word) : HostAgent := { h with vars := h.vars.set t w }

/-- On to the next line. -/
def HostAgent.advance (h : HostAgent) : HostAgent := { h with pc := h.pc + 1 }

/-- The value of a store's operand (R78). -/
def HostAgent.value (h : HostAgent) : HostVal → Word
  | .imm w => w
  | .var t => h.var t

/-- The operation the host performs next: none after `halt`, and none past the end of its program (log 7). -/
def HostAgent.nextOp (h : HostAgent) : Option HostOp :=
  if h.halted then none else (h.prog[h.pc]?).map HostLine.op

/-- The line that defines a label (R78). -/
def HostAgent.findLabel (h : HostAgent) (label : Nat) : Option Nat :=
  h.prog.findIdx? fun line => line.labels.contains label

/-- The operations that access the engine over the bus. -/
def isAccess : HostOp → Bool
  | .st _ _ => true
  | .ld _ _ => true
  | .busWrite _ _ _ => true
  | .busRead _ _ _ => true
  | .li _ _ => false
  | .andi _ _ _ => false
  | .addi _ _ _ => false
  | .bnez _ _ => false
  | .beqz _ _ => false
  | .j _ => false
  | .halt => false

/-- What the engine makes of an access: a register, no register at all (R50), or an access its contract does not cover
(R54). -/
inductive Access where
  | reg (r : Reg)
  | outside
  | unsupported
deriving DecidableEq, Repr

/-- The access of `bytes` bytes at a window offset (R50, R54; log 11). -/
def access (off bytes : Nat) : Access :=
  if off ≥ Config.windowBytes then .outside
  else if bytes = 4 ∧ off % 4 = 0 then .reg (regAt off)
  else .unsupported

/-- The access at a bus address: ENGINE_BASE + off reaches offset off (R50). DESIGN CHOICE: a host reaches the window of
its own instance alone; another instance's ENGINE_BASE is outside it (log 11, 13). -/
def busAccess (inst addr bytes : Nat) : Access :=
  if addr < Config.engineBase inst then .outside else access (addr - Config.engineBase inst) bytes

/-- A host store. -/
def hostStore (a : Access) (w : Word) (s : State) : Host.Outcome State Fault Refusal :=
  match a with
  | .reg r => .next { memWrite r w s with host := s.host.advance }
  | .outside => .fault .outsideWindow
  | .unsupported => .refused .unsupportedAccess

/-- A host load into a variable. -/
def hostLoad (t : Fin 8) (a : Access) (s : State) : Host.Outcome State Fault Refusal :=
  match a with
  | .reg r => .next { (memRead r s).2 with host := (s.host.setVar t (memRead r s).1).advance }
  | .outside => .fault .outsideWindow
  | .unsupported => .refused .unsupportedAccess

/-- A jump of the host to a label (log 7). -/
def hostJump (label : Nat) (s : State) : Host.Outcome State Fault Refusal :=
  match s.host.findLabel label with
  | some k => .next { s with host := { s.host with pc := k } }
  | none => .refused .undefinedLabel

/-- One operation of the host (R78). -/
def hostExec (op : HostOp) (s : State) : Host.Outcome State Fault Refusal :=
  match op with
  | .st off val => hostStore (access off 4) (s.host.value val) s
  | .ld t off => hostLoad t (access off 4) s
  | .busWrite addr bytes val => hostStore (busAccess s.inst addr bytes) (s.host.value val) s
  | .busRead t addr bytes => hostLoad t (busAccess s.inst addr bytes) s
  | .li t imm => .next { s with host := (s.host.setVar t imm).advance }
  | .andi t m imm => .next { s with host := (s.host.setVar t (s.host.var m &&& imm)).advance }
  | .addi t m imm => .next { s with host := (s.host.setVar t (s.host.var m + imm)).advance }
  | .bnez t label => if s.host.var t ≠ 0 then hostJump label s else .next { s with host := s.host.advance }
  | .beqz t label => if s.host.var t = 0 then hostJump label s else .next { s with host := s.host.advance }
  | .j label => hostJump label s
  | .halt => .next { s with host := { s.host with halted := true } }

/-- The host's turn: its next operation, or nothing (log 8). -/
def hostTurn (s : State) : Host.Outcome State Fault Refusal :=
  match s.host.nextOp with
  | some op => hostExec op s
  | none => .next s

end Sys2Proof.Machine
end

