-- ==== Sys2Proof/Machine/Engine.lean ====
section
/-! DEFINITION. What one step of the machine is made of: the engine's completion step (spec/42_control.md R150), the
host's turn (spec/20_memory.md R65), the reset input (spec/70_reset_and_hazards.md R191). -/

namespace Sys2Proof.Machine

/-- The completion of a pending word (R150): decode it, perform it; an illegal word raises ILLEGAL_COMMAND (R152). -/
def complete (c : Word) (s : State) : Host.Outcome State Fault Refusal :=
  match decode c with
  | .ok i => exec i s
  | .error _ => completeIllegal s

/-- A step without an outside event. Once no step is left of a pending command's LATENCY, the engine completes it;
until then, and while nothing is pending, the host has its turn (R65; log 1, 2). -/
def runStep (s : State) : Host.Outcome State Fault Refusal :=
  if s.powerLost then .refused .powerLostWithoutReset
  else
    match s.pending, s.wait with
    | some c, 0 => complete c s
    | some _, k + 1 => hostTurn { s with wait := k }
    | none, _ => hostTurn s

/-- A step in which the reset input is held while the host has its turn (R191): the engine is at its reset values; an
access of the host is refused, its other operations go on (log 9). -/
def resetHeldStep (s : State) : Host.Outcome State Fault Refusal :=
  match s.host.nextOp with
  | some op => if isAccess op then .refused .accessDuringReset else hostExec op (resetEngine s)
  | none => .next (resetEngine s)

/-- One step under one outside event (log 9, 10). DESIGN CHOICE: a reset between two operations of the host and a loss of
power are steps of their own, in which the host performs nothing, nothing completes and no LATENCY is counted, and the
host keeps its program, variables and position. -/
def eventStep (e : EnvEvent) (s : State) : Host.Outcome State Fault Refusal :=
  match e with
  | .quiet => runStep s
  | .resetBetween => .next (resetEngine s)
  | .resetHeld => resetHeldStep s
  | .powerLoss => .next { s with powerLost := true }

/-- The next outside event; none left is the same as quiet (log 9). -/
def State.nextEvent (s : State) : EnvEvent := s.env.headD .quiet

/-- The outside events after this step. -/
def State.popEvent (s : State) : State := { s with env := s.env.tail }

/-- The state in which the very next step completes a given command word: PENDING holds it, no step of its LATENCY is
left, and no outside event comes in between (log 6). -/
def placePending (c : Word) (s : State) : State :=
  { s with pending := some c, wait := 0, env := [], powerLost := false }

end Sys2Proof.Machine
end

