-- ==== Sys2Proof/Machine/Step.lean ====
section
/-! DEFINITION. The one step of the machine (spec/20_memory.md R65, spec/42_control.md R150). -/

namespace Sys2Proof.Machine

/-- One step: the next outside event, and under it the engine's completion or the host's turn. -/
def step (s : State) : Host.Outcome State Fault Refusal := eventStep s.nextEvent s.popEvent

/-- The command word stored where the engine takes its next instruction, PENDING, due at the next step (log 6). -/
def State.withFetchWord (s : State) (nbits w : Nat) : State := placePending (tableWord nbits w) s

end Sys2Proof.Machine
end

