-- ==== Sys2Proof/Machine/HostNotation.lean ====
section
/-! DEFINITION. The pseudo-instructions of host programs and their expansions (spec/30_encoding.md R79). A label is a
number; WAIT's fresh label is an argument. -/

namespace Sys2Proof.Machine.Notation

/-- A line without a label. -/
def line (op : HostOp) : HostLine := { labels := [], op := op }

/-- A line that defines a label. -/
def labelled (l : Nat) (op : HostOp) : HostLine := { labels := [l], op := op }

/-- `CMD m`: store the word of the command in CMD. -/
def cmd (m : Instr) : List HostLine := [line (.st (regOffset .cmd) (.imm (encode m)))]

/-- `WAIT`: poll STATUS.BUSY through t7. -/
def wait (fresh : Nat) : List HostLine :=
  [labelled fresh (.ld 7 (regOffset .status)), line (.andi 7 7 1), line (.bnez 7 fresh)]

/-- `ISSUE m`. -/
def issue (m : Instr) (fresh : Nat) : List HostLine := cmd m ++ wait fresh

/-- `PUTW v, nb`. -/
def putw (v : HostVal) (nb fresh : Nat) : List HostLine :=
  [line (.st (regOffset .din) v)] ++ issue (.sm3Write nb) fresh

/-- `CHKERR L`: branch to L if the last command failed, through t6. -/
def chkerr (l : Nat) : List HostLine :=
  [line (.ld 6 (regOffset .status)), line (.andi 6 6 2), line (.bnez 6 l)]

end Sys2Proof.Machine.Notation
end

