-- ==== Sys2Proof/Machine/Platform.lean ====
section
/-! DEFINITION. A platform of several engines (spec/00_scope.md R8 INSTANCES, spec/60_exceptions.md R182): independent
instances, each with its own window and its own state. DESIGN CHOICE: each has a host of its own, where the spec does not say
whether one host may drive several instances (log 13). -/

namespace Sys2Proof.Machine

/-- The instances of a platform. -/
abbrev Platform := List State

/-- A platform right after reset: INSTANCES engines, numbered, each with a host of its own (DESIGN CHOICE: log 13). -/
def Platform.reset : Platform := (List.range Config.instances).map fun k => { State.reset with inst := k }

/-- One step of the k-th instance; the others share no state with it (R182). A platform has no instance past its last:
nothing happens. -/
def Platform.stepAt (p : Platform) (k : Nat) : Host.Outcome Platform Fault Refusal :=
  match p[k]? with
  | none => .next p
  | some s =>
    match step s with
    | .next t => .next (p.set k t)
    | .fault r => .fault r
    | .refused r => .refused r

end Sys2Proof.Machine
end

