-- ==== Sys2Proof/Safety.lean ====
section
/-! DEFINITION. What counts as a safe run, in the terms the statements use: the state invariant, when a command is due,
the end of a host run, sequences of commands, and the registers a command may read and write. -/

namespace Sys2Proof.Machine

/-- The invariant of the engine's registers: the stream buffer holds LEN mod 64 bytes (so fewer than 64; spec/10_state.md
R30, R43), LEN never exceeds MAX_LEN (R29), and ERR says whether ERRCODE is one of the codes 1 to 4 (R33, U10). -/
structure State.Inv (s : State) : Prop where
  buf_length : s.buf.length = s.len.toNat % 64
  len_le : s.len.toNat ≤ maxLen
  errcode_le : s.errcode.toNat ≤ 4
  err_iff : s.err = true ↔ s.errcode ≠ 0

/-- No outside event is to come and power is there: the engine and the host are alone. -/
structure State.Quiet (s : State) : Prop where
  env_nil : s.env = []
  powered : s.powerLost = false

/-- The next step completes the command word c (R150): it is pending, none of its LATENCY is left, and the next outside
event is quiet. -/
structure State.Due (s : State) (c : Word) : Prop where
  pending_eq : s.pending = some c
  wait_eq : s.wait = 0
  event_eq : s.nextEvent = .quiet
  powered : s.powerLost = false

/-- The next step is the completion of a given command. -/
def State.Completes (s : State) (i : Instr) : Prop := ∃ c, s.Due c ∧ decode c = .ok i

/-- A host run has ended (70_reset_and_hazards.md R198): the host executed `halt` and nothing is pending.
DESIGN CHOICE: whatever emptied PENDING, a reset too; R198 says nothing about a run in which reset is asserted (log 9). -/
def State.RunEnded (s : State) : Prop := s.host.halted = true ∧ s.pending = none

/-- The first outcome, then a second step from its state. -/
def andThen (o : Host.Outcome State Fault Refusal) (f : State → Host.Outcome State Fault Refusal) :
    Host.Outcome State Fault Refusal :=
  match o with
  | .next s => f s
  | .fault r => .fault r
  | .refused r => .refused r

/-- n steps of the machine, stopping at the first fault or refusal: `Host.Core.run` of the core (`steps_eq_run`). -/
def steps : Nat → State → Host.Outcome State Fault Refusal
  | 0, s => .next s
  | n + 1, s => andThen (step s) (steps n)

/-- A host writes the word of a command to CMD and the engine completes it (20_memory.md R56, 42_control.md R150). What
the host does in between, and for how long, is left out here: `Obligations.ResultIndependentOfLatency` says that it
does not matter. -/
def issue (i : Instr) (s : State) : Host.Outcome State Fault Refusal :=
  complete (encode i) (memWrite .cmd (encode i) s)

/-- The word of DIN that holds a piece of a message, most significant byte first (20_memory.md R60); the bytes past the
piece are those of `fill`. -/
def dinOf (piece : List Byte) (fill : Word) : Word :=
  be32 (piece.getD 0 (fill.extractLsb' 24 8)) (piece.getD 1 (fill.extractLsb' 16 8))
    (piece.getD 2 (fill.extractLsb' 8 8)) (piece.getD 3 (fill.extractLsb' 0 8))

/-- A piece of a message, and what the unused bytes of DIN hold while it is written. -/
abbrev Piece := List Byte × Word

/-- The host stores a piece in DIN and issues SM3_WRITE for its bytes: PUTW of 30_encoding.md R79. -/
def writePiece (piece : Piece) (s : State) : Host.Outcome State Fault Refusal :=
  issue (.sm3Write piece.1.length) (memWrite .din (dinOf piece.1 piece.2) s)

/-- PUTW for each piece in order. -/
def writePieces : List Piece → State → Host.Outcome State Fault Refusal
  | [], s => .next s
  | p :: ps, s => andThen (writePiece p s) (writePieces ps)

/-- The message the pieces make. -/
def message (pieces : List Piece) : List Byte := pieces.flatMap Prod.fst

/-- Pieces of 1 to 4 bytes each (40_sm3.md R98). -/
def PiecesOk (pieces : List Piece) : Prop := ∀ p ∈ pieces, 1 ≤ p.1.length ∧ p.1.length ≤ 4

/-- SM3_INIT, one SM3_WRITE per piece, SM3_SUM (40_sm3.md R98). -/
def hashPieces (pieces : List Piece) (s : State) : Host.Outcome State Fault Refusal :=
  andThen (andThen (issue .sm3Init s) (writePieces pieces)) (issue .sm3Sum)

/-- The SM3 part of the state holds the stream of a message M (10_state.md R43). -/
structure StreamOf (m : List Byte) (s : State) : Prop where
  len_eq : s.len.toNat = m.length
  buf_eq : s.buf = m.drop (64 * (m.length / 64))
  v_eq : s.v = cfBlocks iv m (m.length / 64)

/-- y is a square root in [0, p) of the right-hand side at x (41_sm2_point.md R125). -/
def IsRoot (x y : Nat) : Prop := y < Curve.p ∧ y * y % Curve.p = rhs x

/-- Two states agree on the registers a command reads (30_encoding.md R74). -/
def AgreeOnReads (i : Instr) (s t : State) : Prop :=
  match i with
  | .nop => True
  | .sm3Init => True
  | .sm3Write _ => s.din = t.din ∧ s.buf = t.buf ∧ s.len = t.len ∧ s.v = t.v
  | .sm3Sum => s.buf = t.buf ∧ s.len = t.len ∧ s.v = t.v
  | .sm3Compress => s.v = t.v ∧ s.blk = t.blk
  | .ptDecode => s.pk = t.pk ∧ s.pklen = t.pklen
  | .ptEncode _ => s.px = t.px ∧ s.py = t.py

/-- Two states agree on the registers a command writes, STATUS apart (30_encoding.md R74). -/
def AgreeOnWrites (i : Instr) (s t : State) : Prop :=
  match i with
  | .nop => True
  | .sm3Init => s.v = t.v ∧ s.buf = t.buf ∧ s.len = t.len
  | .sm3Write _ => s.buf = t.buf ∧ s.len = t.len ∧ s.v = t.v
  | .sm3Sum => s.digest = t.digest ∧ s.v = t.v ∧ s.buf = t.buf ∧ s.len = t.len
  | .sm3Compress => s.v = t.v
  | .ptDecode => s.px = t.px ∧ s.py = t.py
  | .ptEncode _ => s.pk = t.pk ∧ s.pklen = t.pklen

/-- The same state but for the registers a command writes and for STATUS and PENDING (30_encoding.md R74). -/
def FrameOf (i : Instr) (s t : State) : Prop :=
  match i with
  | .nop => t = { s with err := t.err, errcode := t.errcode, pending := t.pending }
  | .sm3Init =>
    t = { s with v := t.v, buf := t.buf, len := t.len, err := t.err, errcode := t.errcode, pending := t.pending }
  | .sm3Write _ =>
    t = { s with v := t.v, buf := t.buf, len := t.len, err := t.err, errcode := t.errcode, pending := t.pending }
  | .sm3Sum =>
    t = { s with digest := t.digest, v := t.v, buf := t.buf, len := t.len, err := t.err, errcode := t.errcode,
                 pending := t.pending }
  | .sm3Compress => t = { s with v := t.v, err := t.err, errcode := t.errcode, pending := t.pending }
  | .ptDecode => t = { s with px := t.px, py := t.py, err := t.err, errcode := t.errcode, pending := t.pending }
  | .ptEncode _ => t = { s with pk := t.pk, pklen := t.pklen, err := t.err, errcode := t.errcode, pending := t.pending }

/-- The host operations that write to the bus. -/
def isBusWrite : HostOp → Bool
  | .st _ _ => true
  | .busWrite _ _ _ => true
  | .ld _ _ => false
  | .busRead _ _ _ => false
  | .li _ _ => false
  | .andi _ _ _ => false
  | .addi _ _ _ => false
  | .bnez _ _ => false
  | .beqz _ _ => false
  | .j _ => false
  | .halt => false

/-- The host's next operation is a bus write that reaches an idle engine. -/
def State.HostWrites (s : State) : Prop := s.busy = false ∧ ∃ op, s.host.nextOp = some op ∧ isBusWrite op = true

end Sys2Proof.Machine
end

