-- ==== Sys2Proof/Certificates/Slice0/Obligations.lean ====
section
/-! DEFINITION. The statements about the model, for the provers. Each docstring says which rule of spec/ it states, or
which sections it rests on. -/

open Sys2Proof Sys2Proof.Machine

/-! ## Encoding (spec/30_encoding.md) -/

/-- R76: decoding is total, and the legal words are exactly twelve, each with its command. -/
def Obligations.DecodeAcceptsExactlyTwelveWords : Prop :=
  ∀ (c : Word) (i : Instr), decode c = .ok i ↔
    (c, i) ∈ [((0x00000000 : Word), Instr.nop), (0x00000001, .sm3Init), (0x00000002, .sm3Write 1),
      (0x00000102, .sm3Write 2), (0x00000202, .sm3Write 3), (0x00000302, .sm3Write 4), (0x00000003, .sm3Sum),
      (0x00000004, .sm3Compress), (0x00000010, .ptDecode), (0x00000011, .ptEncode .nocompress),
      (0x00001011, .ptEncode .compress), (0x00002011, .ptEncode .mix)]

/-- Decoding the encoding of a well-formed command gives the command back: no bit of an encoding is dropped. -/
def Obligations.DecodeOfEncodeIsTheInstruction : Prop :=
  ∀ i : Instr, i.wellFormed = true → decode (encode i) = .ok i

/-- What the decoder accepts is well-formed, and the encoder gives the word back: each command has one word. -/
def Obligations.EncodeOfDecodeIsTheWord : Prop :=
  ∀ (c : Word) (i : Instr), decode c = .ok i → i.wellFormed = true ∧ encode i = c

/-- R75: a word is illegal exactly under the six conditions; it is accepted like any other, and at completion it raises
ILLEGAL_COMMAND with no effect except on STATUS. -/
def Obligations.IllegalWordConditions : Prop :=
  ∀ c : Word,
    ((∃ r, decode c = .error r) ↔
      (c.extractLsb' 0 8 ∉ [(0x00 : BitVec 8), 0x01, 0x02, 0x03, 0x04, 0x10, 0x11]
        ∨ c.extractLsb' 14 18 ≠ 0
        ∨ c.extractLsb' 10 2 ≠ 0
        ∨ (c.extractLsb' 8 2 ≠ 0 ∧ c.extractLsb' 0 8 ≠ 0x02)
        ∨ (c.extractLsb' 12 2 ≠ 0 ∧ c.extractLsb' 0 8 ≠ 0x11)
        ∨ (c.extractLsb' 0 8 = 0x11 ∧ c.extractLsb' 12 2 = 3)))
    ∧ ∀ (r : IllegalReason) (s : State), decode c = .error r →
        (s.busy = false → (memWrite .cmd c s).pending = some c)
        ∧ complete c s = .next { s with err := true, errcode := 0x1, pending := none }

/-- A few words written out from R70 and R71 decode to the commands they stand for, and a few to none. -/
def Obligations.WordsDecodeAsTheTableSays : Prop :=
  decode 0b000000000000000000_00_00_00_00000000 = .ok .nop
  ∧ decode 0b000000000000000000_00_00_10_00000010 = .ok (.sm3Write 3)
  ∧ decode 0b000000000000000000_00_00_00_00000100 = .ok .sm3Compress
  ∧ decode 0b000000000000000000_00_00_00_00010000 = .ok .ptDecode
  ∧ decode 0b000000000000000000_10_00_00_00010001 = .ok (.ptEncode .mix)
  ∧ decode 0b000000000000000000_11_00_00_00010001 = .error .modeReserved
  ∧ decode 0b000000000000000000_00_00_01_00000001 = .error .nbm1OfOtherOp
  ∧ decode 0b100000000000000000_00_00_00_00000011 = .error .reservedBits

/-! ## The step (spec/42_control.md R150, spec/20_memory.md R65, spec/70_reset_and_hazards.md R197) -/

/-- A step runs the decoded command: when a pending word is due and decodes to i, the step is exec of i, at the state
whose outside event has been taken; with the word placed by `withFetchWord` that is the very next step. -/
def Obligations.StepRunsTheDecodedCommand : Prop :=
  (∀ (s : State) (c : Word) (i : Instr), s.Due c → decode c = .ok i → step s = exec i s.popEvent)
  ∧ ∀ (s : State) (w : Nat) (i : Instr), decodeTableWord 32 w = some i →
      (s.withFetchWord 32 w).Due (BitVec.ofNat 32 w)
      ∧ step (s.withFetchWord 32 w) = exec i (s.withFetchWord 32 w)

/-- Between completions the steps are the host's turns (20_memory.md R65): while nothing is pending, and while a pending
command has steps of its LATENCY left, a step performs the host's next operation, or nothing if the host has none (after
`halt`, or past the end of its program: log 7, 8). -/
def Obligations.OtherStepsAreTheHostsTurns : Prop :=
  ∀ s : State, s.nextEvent = .quiet → s.powerLost = false →
    (s.pending = none →
      (∀ op, s.host.nextOp = some op → step s = hostExec op s.popEvent)
      ∧ (s.host.nextOp = none → step s = .next s.popEvent))
    ∧ ∀ (c : Word) (k : Nat), s.pending = some c → s.wait = k + 1 →
      (∀ op, s.host.nextOp = some op → step s = hostExec op { s.popEvent with wait := k })
      ∧ (s.host.nextOp = none → step s = .next { s.popEvent with wait := k })

/-- Who changes what in a step without reset (10_state.md R42): each register changes only when one of its commands
completes, or, where the host may write it, when a host write reaches the idle engine; ERR and ERRCODE only at a
completion (60_exceptions.md R172); PENDING at an acceptance or a completion. -/
def Obligations.OnlyItsWritersChangeARegister : Prop :=
  ∀ s t : State, s.nextEvent.isReset = false → step s = .next t →
    (t.v ≠ s.v → s.Completes .sm3Init ∨ (∃ nb, s.Completes (.sm3Write nb)) ∨ s.Completes .sm3Sum
      ∨ s.Completes .sm3Compress)
    ∧ (t.buf ≠ s.buf ∨ t.len ≠ s.len → s.Completes .sm3Init ∨ (∃ nb, s.Completes (.sm3Write nb)) ∨ s.Completes .sm3Sum)
    ∧ (t.digest ≠ s.digest → s.Completes .sm3Sum)
    ∧ (t.blk ≠ s.blk ∨ t.din ≠ s.din → s.HostWrites)
    ∧ (t.px ≠ s.px ∨ t.py ≠ s.py → s.Completes .ptDecode ∨ s.HostWrites)
    ∧ (t.pk ≠ s.pk ∨ t.pklen ≠ s.pklen → (∃ mode, s.Completes (.ptEncode mode)) ∨ s.HostWrites)
    ∧ (t.err ≠ s.err ∨ t.errcode ≠ s.errcode → ∃ c, s.Due c)
    ∧ (t.pending ≠ s.pending → (∃ c, s.Due c) ∨ s.HostWrites)

/-- R152: a pending illegal word that is due completes with ILLEGAL_COMMAND and changes nothing else, whatever ERR
and the other registers held; an illegal word is one that is none of the twelve. -/
def Obligations.IllegalWordStepRaisesIllegalCommand : Prop :=
  ∀ (s : State) (c : Word), s.Due c →
    c ∉ [(0x00000000 : Word), 0x00000001, 0x00000002, 0x00000102, 0x00000202, 0x00000302, 0x00000003, 0x00000004,
      0x00000010, 0x00000011, 0x00001011, 0x00002011] →
    step s = .next { s.popEvent with err := true, errcode := 0x1, pending := none }

/-- While a command has steps of its LATENCY left, and no outside event comes, whatever the host does for n steps
changes no register of the engine but BERR: no intermediate value is observable (10_state.md R37), writes are dropped
(20_memory.md R57), nothing but completion empties PENDING. -/
def Obligations.PendingCommandKeepsTheRegisters : Prop :=
  ∀ (n : Nat) (s t : State) (c : Word), s.pending = some c → n ≤ s.wait → s.powerLost = false →
    (∀ e ∈ s.env, e = EnvEvent.quiet) → steps n s = .next t →
    t = { s with berr := t.berr, wait := s.wait - n, draws := t.draws, env := s.env.drop n, host := t.host }

/-- The functional result of a command is the same for every LATENCY and whatever the host does meanwhile
(70_reset_and_hazards.md R197, 20_memory.md R57): after the LATENCY the state is what completing the command at once
gives, but for BERR, the counter of free values, the outside events and the host. -/
def Obligations.ResultIndependentOfLatency : Prop :=
  ∀ (s t : State) (c : Word), s.pending = some c → s.powerLost = false → (∀ e ∈ s.env, e = EnvEvent.quiet) →
    steps (s.wait + 1) s = .next t →
    ∃ u, complete c s = .next u ∧
      t = { u with berr := t.berr, wait := 0, draws := t.draws, env := s.env.drop (s.wait + 1), host := t.host }

/-- The pending command of a host that has halted completes after its LATENCY, and the run is then over
(70_reset_and_hazards.md R198). That a halted host makes no further operation, so that the end state is exactly that of
the command's completion, is the MODEL'S CHOICE (log 7): R198 does not say what the host does after halt. -/
def Obligations.HaltedHostRunEnds : Prop :=
  ∀ (s : State) (c : Word), s.pending = some c → s.Quiet → s.host.halted = true →
    ∃ t, steps (s.wait + 1) s = .next t ∧ t.RunEnded
      ∧ complete c { s with wait := 0 } = .next t

/-- What sets, clears and keeps BERR, over every step (10_state.md R34, 60_exceptions.md R173): it rises only in the
turn of a host whose operation is a bus write to the busy engine, and rises in every such turn; it falls only at an
acceptance or with the reset input asserted; a completion keeps it. -/
def Obligations.BerrIsSetByDroppedWritesOnly : Prop :=
  (∀ s t : State, step s = .next t →
    (s.berr = false → t.berr = true →
      s.nextEvent = .quiet ∧ s.busy = true ∧ s.wait ≠ 0 ∧ ∃ op, s.host.nextOp = some op ∧ isBusWrite op = true)
    ∧ (s.berr = true → t.berr = false →
      s.nextEvent.isReset = true ∨ (s.pending = none ∧ s.HostWrites ∧ t.busy = true))
    ∧ ∀ c, s.Due c → t.berr = s.berr)
  ∧ ∀ (s t : State) (op : HostOp), s.busy = true → s.host.nextOp = some op → hostTurn s = .next t →
      t.berr = (s.berr || isBusWrite op)

/-! ## Reset (spec/70_reset_and_hazards.md) -/

/-- R190: the reset value of every piece of state; the SM3 part equals the state after SM3_INIT. -/
def Obligations.ResetValues : Prop :=
  State.reset.v = #v[0x7380166f, 0x4914b2b9, 0x172442d7, 0xda8a0600, 0xa96f30bc, 0x163138aa, 0xe38dee4d, 0xb0fb0e4e]
  ∧ State.reset.buf = [] ∧ State.reset.len = 0
  ∧ (∀ i : Fin 8, State.reset.digest[i] = 0 ∧ State.reset.px[i] = 0 ∧ State.reset.py[i] = 0)
  ∧ (∀ i : Fin 16, State.reset.blk[i] = 0)
  ∧ (∀ i : Fin 17, State.reset.pk[i] = 0)
  ∧ State.reset.din = 0 ∧ State.reset.pklen = 0 ∧ State.reset.pending = none
  ∧ State.reset.status = 0x00000000
  ∧ readReg .id State.reset = 0x534D3332 ∧ readReg .cmd State.reset = 0
  ∧ ∀ s t, exec .sm3Init s = .next t →
      t.v = State.reset.v ∧ t.buf = State.reset.buf ∧ t.len = State.reset.len

/-- Reset between two operations of the host, and reset held while the host has its turn, put every register at its
reset value, whatever the engine was doing and whether or not it has power, and abandon a pending command; the first is
always possible, and the step after it is one at BUSY = 0; in the second an access of the host is refused, and a host
that makes none is no obstacle (R191). That the host keeps its place over the first, and that its local operations go
on in the second, is the model's choice (log 9). -/
def Obligations.ResetEvent : Prop :=
  (∀ s : State, s.nextEvent = .resetBetween →
      step s = .next { State.reset with draws := s.draws, env := s.env.tail, inst := s.inst, host := s.host })
  ∧ (∀ s t : State, s.nextEvent.isReset = true → step s = .next t →
      t = { State.reset with draws := s.draws, env := s.env.tail, inst := s.inst, host := t.host } ∧ t.busy = false)
  ∧ (∀ (s : State) (op : HostOp), s.nextEvent = .resetHeld → s.host.nextOp = some op →
      (isAccess op = true → step s = .refused .accessDuringReset)
      ∧ (isAccess op = false → step s = hostExec op
          { State.reset with draws := s.draws, env := s.env.tail, inst := s.inst, host := s.host }))
  ∧ ∀ s : State, s.nextEvent = .resetHeld → s.host.nextOp = none →
      step s = .next { State.reset with draws := s.draws, env := s.env.tail, inst := s.inst, host := s.host }

/-- Reset is the only way to abandon a pending command (R191): under any other event a step leaves it pending or
completes it. -/
def Obligations.OnlyResetAbandonsACommand : Prop :=
  ∀ (s t : State) (c : Word), s.pending = some c → s.nextEvent.isReset = false → step s = .next t →
    t.pending = some c ∨ complete c s.popEvent = .next t

/-- After a loss of power nothing runs until reset is asserted (60_exceptions.md R184, 93 U8); that nothing else
happens in the step of the loss is the model's choice (log 10). -/
def Obligations.PowerLossNeedsReset : Prop :=
  (∀ s : State, s.nextEvent = .powerLoss → step s = .next { s with powerLost := true, env := s.env.tail })
  ∧ (∀ s : State, s.powerLost = true → s.nextEvent = .quiet → step s = .refused .powerLostWithoutReset)
  ∧ ∀ s t : State, s.nextEvent.isReset = true → step s = .next t → t.powerLost = false

/-! ## The invariant -/

/-- The invariant of the engine's registers holds at reset. -/
def Obligations.InvariantHoldsAtReset : Prop := State.reset.Inv

/-- Every step keeps the invariant: |BUF| = LEN mod 64 (so |BUF| < 64), LEN ≤ 2^61 − 1, ERRCODE ≤ 4, and ERR = 1
exactly when ERRCODE is not 0 (10_state.md R29, R30, R33). -/
def Obligations.InvariantKeptByEveryStep : Prop :=
  ∀ s t : State, s.Inv → step s = .next t → t.Inv

/-! ## The register window (spec/20_memory.md) -/

/-- R27: ID reads 0x534D3332 at offset 0x000, busy or not, and writes to it are ignored. -/
def Obligations.IdIsHardwired : Prop :=
  ∀ (s : State) (w : Word),
    regAt 0x000 = .id ∧ memRead .id s = (0x534D3332, s)
    ∧ (s.busy = false → memWrite .id w s = s)
    ∧ (memRead .id (memWrite .id w s)).1 = 0x534D3332
    ∧ readReg .id State.reset = 0x534D3332

/-- The offsets of the register map (R51), and what a read of each returns while BUSY = 0 (R52): the read changes no
state. -/
def Obligations.RegisterMapReads : Prop :=
  ∀ s : State, s.busy = false →
    memRead (regAt 0x000) s = (0x534D3332, s) ∧ memRead (regAt 0x004) s = (0, s)
    ∧ memRead (regAt 0x008) s = (s.status, s) ∧ memRead (regAt 0x00C) s = (s.din, s)
    ∧ memRead (regAt 0x010) s = (s.len.extractLsb' 0 32, s) ∧ memRead (regAt 0x014) s = (s.len.extractLsb' 32 32, s)
    ∧ memRead (regAt 0x018) s = (0#25 ++ s.pklen, s)
    ∧ (∀ i : Fin 8, memRead (regAt (0x020 + 4 * i.val)) s = (s.v[i], s)
        ∧ memRead (regAt (0x040 + 4 * i.val)) s = (s.digest[i], s)
        ∧ memRead (regAt (0x0C0 + 4 * i.val)) s = (s.px[i], s)
        ∧ memRead (regAt (0x0E0 + 4 * i.val)) s = (s.py[i], s))
    ∧ (∀ i : Fin 16, memRead (regAt (0x080 + 4 * i.val)) s = (s.blk[i], s))
    ∧ ∀ i : Fin 17, memRead (regAt (0x100 + 4 * i.val)) s = (s.pk[i], s)

/-- R55: reserved offsets read as zero and ignore writes, and writes to read-only registers are ignored, while
BUSY = 0; no STATUS bit is set: the state is the same. -/
def Obligations.ReservedAndReadOnlyIgnoreWrites : Prop :=
  ∀ (s : State) (w : Word) (off : Nat), s.busy = false → off % 4 = 0 →
    ((off = 0x01C ∨ (0x060 ≤ off ∧ off ≤ 0x07C) ∨ (0x144 ≤ off ∧ off ≤ 0x3FC)) →
      memRead (regAt off) s = (0, s) ∧ memWrite (regAt off) w s = s)
    ∧ ((off = 0x000 ∨ off = 0x008 ∨ off = 0x010 ∨ off = 0x014 ∨ (0x020 ≤ off ∧ off ≤ 0x05C)) →
      memWrite (regAt off) w s = s)

/-- A write to a read/write register while BUSY = 0 is what the next read returns, PKLEN in its low seven bits; every
other register reads as before, and the hidden BUF and PENDING stay (R53, R59). -/
def Obligations.WriteThenRead : Prop :=
  ∀ (s : State) (w : Word) (off off' : Nat), s.busy = false → off % 4 = 0 → off' % 4 = 0 → off < 0x400 → off' < 0x400 →
    ((off = 0x00C ∨ (0x080 ≤ off ∧ off < 0x144)) →
      (memRead (regAt off) (memWrite (regAt off) w s)).1 = w)
    ∧ (memRead (regAt 0x018) (memWrite (regAt 0x018) w s)).1 = w &&& 0x7F
    ∧ (off ≠ 0x004 → off' ≠ off →
      memRead (regAt off') (memWrite (regAt off) w s) = ((memRead (regAt off') s).1, memWrite (regAt off) w s))
    ∧ (off ≠ 0x004 →
      (memWrite (regAt off) w s).buf = s.buf ∧ (memWrite (regAt off) w s).pending = s.pending)

/-- Acceptance of a command (R56): a write to CMD while BUSY = 0 makes the word PENDING, sets BUSY and clears BERR,
and changes no other register; it never fails, whatever the word. -/
def Obligations.CommandAcceptance : Prop :=
  ∀ (s : State) (c : Word), s.busy = false →
    (memWrite (regAt 0x004) c s).busy = true ∧
    memWrite (regAt 0x004) c s =
      { s with pending := some c, berr := false, wait := (memWrite (regAt 0x004) c s).wait, draws := s.draws + 1 }

/-- R57: a host write to any offset while BUSY = 1 has no effect except BERR <- 1, and the pending command completes
exactly as if the write had not happened. -/
def Obligations.BusyWriteIsDropped : Prop :=
  ∀ (s : State) (off : Nat) (w : Word), s.busy = true →
    memWrite (regAt off) w s = { s with berr := true }
    ∧ ∀ (c : Word) (t : State), s.pending = some c → complete c s = .next t →
        complete c (memWrite (regAt off) w s) = .next { t with berr := true }

/-- Reads while BUSY = 1 (R52, R58): ID is exact; BUSY, BERR and the reserved bits of STATUS are exact; a read changes
no register. Nothing is said of the values of other reads: they are free, CMD and reserved offsets included (log 4). -/
def Obligations.BusyReads : Prop :=
  ∀ (s : State) (off : Nat), s.busy = true →
    (memRead (regAt 0x000) s).1 = 0x534D3332
    ∧ (memRead (regAt 0x008) s).1.getLsbD 0 = true
    ∧ (memRead (regAt 0x008) s).1.getLsbD 2 = s.berr
    ∧ (memRead (regAt 0x008) s).1.getLsbD 3 = false
    ∧ (memRead (regAt 0x008) s).1.extractLsb' 14 18 = 0
    ∧ (memRead (regAt off) s).2 = { s with draws := (memRead (regAt off) s).2.draws }

/-- The layout of STATUS (10_state.md R31) while no command is pending: BUSY, ERR, BERR, ERRCODE and BUFCNT in their
places, the reserved bits 0. -/
def Obligations.StatusLayout : Prop :=
  ∀ s : State, s.busy = false → s.buf.length < 64 →
    s.status.getLsbD 0 = false ∧ s.status.getLsbD 1 = s.err ∧ s.status.getLsbD 2 = s.berr
    ∧ s.status.getLsbD 3 = false ∧ s.status.extractLsb' 4 4 = s.errcode
    ∧ (s.status.extractLsb' 8 6).toNat = s.buf.length ∧ s.status.extractLsb' 14 18 = 0

/-- R54: an access of any width but 32 bits, or at an offset that is no multiple of 4, is refused; the host step that
issues it is. -/
def Obligations.OtherAccessesAreRefused : Prop :=
  ∀ (s : State) (off bytes : Nat) (t : Fin 8) (v : HostVal), off < 0x400 →
    ((bytes ≠ 4 ∨ off % 4 ≠ 0) →
      hostExec (.busRead t (Config.engineBase s.inst + off) bytes) s = .refused .unsupportedAccess
      ∧ hostExec (.busWrite (Config.engineBase s.inst + off) bytes v) s = .refused .unsupportedAccess)
    ∧ (off % 4 ≠ 0 →
      hostExec (.ld t off) s = .refused .unsupportedAccess ∧ hostExec (.st off v) s = .refused .unsupportedAccess)

/-- The two bus operations of the host: at an aligned offset of the window `st` is MemWrite of the operand's value to
the register there, `ld` is MemRead of it into the variable, and the host goes on with its next line (R52, R53, R78);
bus address ENGINE_BASE + off reaches window offset off, and ENGINE_BASE is a multiple of 0x400 (R50, R8). An access
outside the window, at a bus address or at an offset, faults: the model's choice (log 11). -/
def Obligations.BusAddressesReachTheWindow : Prop :=
  ∀ (s : State) (off addr bytes : Nat) (t x : Fin 8) (w : Word) (v : HostVal),
    (off < 0x400 → off % 4 = 0 →
      hostExec (.st off (.imm w)) s =
        .next { memWrite (regAt off) w s with host := { s.host with pc := s.host.pc + 1 } }
      ∧ hostExec (.st off (.var x)) s =
        .next { memWrite (regAt off) s.host.vars[x] s with host := { s.host with pc := s.host.pc + 1 } }
      ∧ hostExec (.ld t off) s =
        .next { (memRead (regAt off) s).2 with
                  host := { s.host with vars := s.host.vars.set t (memRead (regAt off) s).1, pc := s.host.pc + 1 } })
    ∧ Config.engineBase s.inst % 0x400 = 0
    ∧ (off < 0x400 →
        hostExec (.busRead t (Config.engineBase s.inst + off) 4) s = hostExec (.ld t off) s
        ∧ hostExec (.busWrite (Config.engineBase s.inst + off) 4 v) s = hostExec (.st off v) s)
    ∧ ((addr < Config.engineBase s.inst ∨ Config.engineBase s.inst + 0x400 ≤ addr) →
        hostExec (.busRead t addr bytes) s = .fault .outsideWindow
        ∧ hostExec (.busWrite addr bytes v) s = .fault .outsideWindow)
    ∧ (0x400 ≤ off →
        hostExec (.ld t off) s = .fault .outsideWindow ∧ hostExec (.st off v) s = .fault .outsideWindow)

/-- R38: PKLEN is seven bits at offset 0x018, may hold any value, PT_DECODE accepts only 33 or 65 according to the
prefix, PT_ENCODE writes 33 or 65, and it is 0 at reset. -/
def Obligations.PklenField : Prop :=
  regAt 0x018 = .pklen ∧ State.reset.pklen = 0
  ∧ (∀ (s : State) (n : Nat), s.busy = false → n ≤ 127 →
      (memWrite .pklen (BitVec.ofNat 32 n) s).pklen.toNat = n)
  ∧ (∀ s : State, (readReg .pklen s).extractLsb' 7 25 = 0 ∧ (readReg .pklen s).extractLsb' 0 7 = s.pklen)
  ∧ (∀ (s : State) (w w' : Word), s.busy = false → w.extractLsb' 0 7 = w'.extractLsb' 0 7 →
      memWrite .pklen w s = memWrite .pklen w' s)
  ∧ (∀ s t : State, exec .ptDecode s = .next t → t.err = false →
      (s.pklen = 33 ∧ s.pkb.getD 0 0 ∈ [(0x02 : Byte), 0x03])
      ∨ (s.pklen = 65 ∧ s.pkb.getD 0 0 ∈ [(0x04 : Byte), 0x06, 0x07]))
  ∧ ∀ (s t : State) (mode : EncMode), exec (.ptEncode mode) s = .next t → t.pklen = 33 ∨ t.pklen = 65

/-- The byte and integer views of the registers (R61, R62, R63): the value of eight coordinate words is the sum of
word i times 2^(32·(7−i)), and bytes32 of it is the bytes of the words in order; byte 4i + k of PKB is
PK[i][31−8k : 24−8k]; digest byte 4i + k is DIGEST[i][31−8k : 24−8k]. -/
def Obligations.RegisterByteOrder : Prop :=
  ∀ s : State,
    (∀ ws ∈ [s.px, s.py],
      coordValue ws = ((List.finRange 8).map fun i : Fin 8 => ws[i].toNat * 2 ^ (32 * (7 - i.val))).sum
      ∧ ∀ (i : Fin 8) (k : Fin 4),
          (natToBytes 32 (coordValue ws))[4 * i.val + k.val]? = some (ws[i].extractLsb' (24 - 8 * k.val) 8))
    ∧ s.pkb.length = 68
    ∧ (∀ (i : Fin 17) (k : Fin 4), s.pkb[4 * i.val + k.val]? = some (s.pk[i].extractLsb' (24 - 8 * k.val) 8))
    ∧ s.digestBytes.length = 32
    ∧ ∀ (i : Fin 8) (k : Fin 4),
        s.digestBytes[4 * i.val + k.val]? = some (s.digest[i].extractLsb' (24 - 8 * k.val) 8)

/-! ## The host's notation (spec/30_encoding.md R78) and several instances (spec/60_exceptions.md R182) -/

/-- The host's local operations: what they do to the variables, where they go on, and that they touch nothing of the
engine (R78). The model's choices of log 7: a label is at the first line that has it, and a taken jump or branch to a
label that no line has is refused. -/
def Obligations.HostLocalOperations : Prop :=
  ∀ (s : State) (t m : Fin 8) (w : Word) (l : Nat),
    hostExec (.li t w) s =
      .next { s with host := { s.host with vars := s.host.vars.set t w, pc := s.host.pc + 1 } }
    ∧ hostExec (.andi t m w) s =
      .next { s with host := { s.host with vars := s.host.vars.set t (s.host.vars[m] &&& w), pc := s.host.pc + 1 } }
    ∧ hostExec (.addi t m w) s =
      .next { s with host := { s.host with vars := s.host.vars.set t (s.host.vars[m] + w), pc := s.host.pc + 1 } }
    ∧ hostExec .halt s = .next { s with host := { s.host with halted := true } }
    ∧ (s.host.vars[t] = 0 → hostExec (.bnez t l) s = .next { s with host := { s.host with pc := s.host.pc + 1 } })
    ∧ (s.host.vars[t] ≠ 0 → hostExec (.beqz t l) s = .next { s with host := { s.host with pc := s.host.pc + 1 } })
    ∧ (∀ k line, s.host.prog[k]? = some line → l ∈ line.labels →
        (∀ j < k, ∀ line, s.host.prog[j]? = some line → l ∉ line.labels) →
        hostExec (.j l) s = .next { s with host := { s.host with pc := k } }
        ∧ (s.host.vars[t] ≠ 0 → hostExec (.bnez t l) s = .next { s with host := { s.host with pc := k } })
        ∧ (s.host.vars[t] = 0 → hostExec (.beqz t l) s = .next { s with host := { s.host with pc := k } }))
    ∧ ((∀ line ∈ s.host.prog, l ∉ line.labels) →
        hostExec (.j l) s = .refused .undefinedLabel
        ∧ (s.host.vars[t] ≠ 0 → hostExec (.bnez t l) s = .refused .undefinedLabel)
        ∧ (s.host.vars[t] = 0 → hostExec (.beqz t l) s = .refused .undefinedLabel))

/-- Instances share no state (R182): a step of one leaves every other as it was; each keeps its number, from reset the
k-th has number k, and no two numbers share an address of their windows (R8). -/
def Obligations.InstancesAreIndependent : Prop :=
  (∀ (p q : Platform) (k j : Nat), p.stepAt k = .next q → j ≠ k → q[j]? = p[j]? ∧ q.length = p.length)
  ∧ (∀ s t : State, step s = .next t → t.inst = s.inst)
  ∧ (∀ (k : Nat) (s : State), Platform.reset[k]? = some s → s = { State.reset with inst := k })
  ∧ ∀ i j : Nat, i ≠ j →
      Config.engineBase i + 0x400 ≤ Config.engineBase j ∨ Config.engineBase j + 0x400 ≤ Config.engineBase i

/-! ## SM3: the pure functions (spec/40_sm3.md sections 1 to 4) -/

/-- R82 and R83: the boolean functions of a round, with the second forms bit by bit: the majority, and "if X then Y
else Z". -/
def Obligations.BooleanFunctions : Prop :=
  ∀ (j : Nat) (x y z : Word), j < 64 →
    (j < 16 → ff j x y z = x ^^^ y ^^^ z ∧ gg j x y z = x ^^^ y ^^^ z)
    ∧ (16 ≤ j →
        ff j x y z = (x &&& y) ||| (x &&& z) ||| (y &&& z)
        ∧ gg j x y z = (x &&& y) ||| (~~~x &&& z)
        ∧ ∀ b < 32,
            (ff j x y z).getLsbD b = Bool.atLeastTwo (x.getLsbD b) (y.getLsbD b) (z.getLsbD b)
            ∧ (gg j x y z).getLsbD b = if x.getLsbD b then y.getLsbD b else z.getLsbD b)

/-- ROL (00_scope.md R10): by n mod 32, as the two shifts modulo 2^32; ROL(x, 0) = x. -/
def Obligations.RotateLeft : Prop :=
  ∀ (x : Word) (n : Nat),
    (rol x n).toNat = (x.toNat * 2 ^ (n % 32) ||| x.toNat / 2 ^ (32 - n % 32)) % 2 ^ 32
    ∧ rol x 0 = x ∧ rol x n = rol x (n % 32)

/-- R87 and R88: the schedule of a block of sixteen words has 68 words, the block's first, then each by the recurrence
from the words before it; W'[j] = W[j] ⊕ W[j+4]. -/
def Obligations.ScheduleRecurrence : Prop :=
  ∀ block : List Word, block.length = 16 →
    (expand block).length = 68
    ∧ (∀ j < 16, (expand block).getD j 0 = block.getD j 0)
    ∧ (∀ j, 16 ≤ j → j ≤ 67 →
        (expand block).getD j 0 =
          perm1 ((expand block).getD (j - 16) 0 ^^^ (expand block).getD (j - 9) 0
              ^^^ rol ((expand block).getD (j - 3) 0) 15)
            ^^^ rol ((expand block).getD (j - 13) 0) 7 ^^^ (expand block).getD (j - 6) 0)
    ∧ ∀ j < 64, wPrime (expand block) j = (expand block).getD j 0 ^^^ (expand block).getD (j + 4) 0

/-- R81, R84, R85, R86, R89 and R90: the round constant in both ranges; the two permutations; the parse of a block; the
eight simultaneous assignments of round j; and the compression function: from V, rounds 0 to 63 over the schedule of the
parsed block, then V[i] ⊕ register i. -/
def Obligations.CompressionFunction : Prop :=
  (∀ j < 64, (j < 16 → roundConstant j = 0x79cc4519) ∧ (16 ≤ j → roundConstant j = 0x7a879d8a))
  ∧ (∀ x : Word, perm0 x = x ^^^ rol x 9 ^^^ rol x 17 ∧ perm1 x = x ^^^ rol x 15 ^^^ rol x 23)
  ∧ (∀ block : List Byte, block.length = 64 → ∀ i : Fin 16, (parseBlock block)[i].toNat =
      (block.getD (4 * i.val) 0).toNat * 2 ^ 24 + (block.getD (4 * i.val + 1) 0).toNat * 2 ^ 16
        + (block.getD (4 * i.val + 2) 0).toNat * 2 ^ 8 + (block.getD (4 * i.val + 3) 0).toNat)
  ∧ (∀ (w : List Word) (s : Working) (ss1 ss2 tt1 tt2 : Word), ∀ j < 64,
      ss1 = rol (rol s.a 12 + s.e + rol (roundConstant j) (j % 32)) 7 →
      ss2 = ss1 ^^^ rol s.a 12 →
      tt1 = ff j s.a s.b s.c + s.d + ss2 + (w.getD j 0 ^^^ w.getD (j + 4) 0) →
      tt2 = gg j s.e s.f s.g + s.h + ss1 + w.getD j 0 →
      round j w s =
        { a := tt1, b := s.a, c := rol s.b 9, d := s.c, e := perm0 tt2, f := s.e, g := rol s.f 19, h := s.g })
  ∧ ∀ (v : Vector Word 8) (block : List Byte), block.length = 64 →
      ∃ s : Nat → Working,
        s 0 = { a := v[0], b := v[1], c := v[2], d := v[3], e := v[4], f := v[5], g := v[6], h := v[7] }
        ∧ (∀ j < 64, s (j + 1) = round j (expand (parseBlock block).toList) (s j))
        ∧ cf v block = #v[v[0] ^^^ (s 64).a, v[1] ^^^ (s 64).b, v[2] ^^^ (s 64).c, v[3] ^^^ (s 64).d,
                          v[4] ^^^ (s 64).e, v[5] ^^^ (s 64).f, v[6] ^^^ (s 64).g, v[7] ^^^ (s 64).h]

/-- R91: the padded tail: 0x80, the least number of zero bytes that brings the length to 56 modulo 64, the bit length
big-endian in 8 bytes, where the modulus 2^64 never acts; one block up to 55 bytes, two from 56 on. -/
def Obligations.PaddingShape : Prop :=
  ∀ (buf : List Byte) (len : Nat), buf.length ≤ 63 → len ≤ 2 ^ 61 - 1 →
    ∃ k tail, pad buf len = buf ++ [0x80] ++ List.replicate k 0 ++ tail
      ∧ (buf.length + 1 + k) % 64 = 56 ∧ (∀ k', (buf.length + 1 + k') % 64 = 56 → k ≤ k')
      ∧ tail.length = 8 ∧ bytesToNat tail = 8 * len
      ∧ (buf.length ≤ 55 → (pad buf len).length = 64) ∧ (56 ≤ buf.length → (pad buf len).length = 128)

/-! ## SM3: the commands (spec/40_sm3.md section 5) -/

/-- R94: SM3_INIT: its word, its whole effect, and that no other word with OP = 0x01 performs it. -/
def Obligations.Sm3InitResult : Prop :=
  encode .sm3Init = 0x00000001
  ∧ (∀ c : Word, c.extractLsb' 0 8 = 0x01 → c ≠ 0x00000001 → ∃ r, decode c = .error r)
  ∧ ∀ s : State,
      exec .sm3Init s =
        .next { s with v := #v[0x7380166f, 0x4914b2b9, 0x172442d7, 0xda8a0600, 0xa96f30bc, 0x163138aa, 0xe38dee4d,
                               0xb0fb0e4e]
                       buf := [], len := 0, err := false, errcode := 0, pending := none }
      ∧ ∀ t, exec .sm3Init s = .next t → t.status.extractLsb' 8 6 = 0

/-- R95: SM3_WRITE nb: its word, and its effect: HASH_STATE past MAX_LEN with V, BUF and LEN unchanged, otherwise the
bytes appended, at most one block compressed and the remaining bytes starting the next, LEN counted; DIN unchanged. -/
def Obligations.Sm3WriteResult : Prop :=
  ∀ (s : State) (nb : Nat), 1 ≤ nb → nb ≤ 4 → s.buf.length ≤ 63 →
    encode (.sm3Write nb) = 0x00000002 + BitVec.ofNat 32 ((nb - 1) * 0x100)
    ∧ (2 ^ 61 - 1 < s.len.toNat + nb →
        exec (.sm3Write nb) s = .next { s with err := true, errcode := 0x4, pending := none })
    ∧ (s.len.toNat + nb ≤ 2 ^ 61 - 1 →
        ∀ all, all = s.buf ++ [s.din.extractLsb' 24 8, s.din.extractLsb' 16 8, s.din.extractLsb' 8 8,
                               s.din.extractLsb' 0 8].take nb →
        exec (.sm3Write nb) s =
          .next { s with v := if all.length < 64 then s.v else cf s.v (all.take 64)
                         buf := if all.length < 64 then all else all.drop 64
                         len := BitVec.ofNat 64 (s.len.toNat + nb)
                         err := false, errcode := 0, pending := none })

/-- R96: SM3_SUM: its word, and its effect: pad, compress one block (|BUF| ≤ 55) or two, latch DIGEST, re-initialise;
with nothing written it gives the hash of the empty message, and again right after. -/
def Obligations.Sm3SumResult : Prop :=
  encode .sm3Sum = 0x00000003
  ∧ ∀ s : State, s.buf.length ≤ 63 →
      exec .sm3Sum s =
        .next { s with digest := if s.buf.length ≤ 55 then cf s.v (pad s.buf s.len.toNat)
                                 else cf (cf s.v ((pad s.buf s.len.toNat).take 64)) ((pad s.buf s.len.toNat).drop 64)
                       v := iv, buf := [], len := 0, err := false, errcode := 0, pending := none }
      ∧ (s.len = 0 → s.buf = [] → s.v = iv → ∀ t, exec .sm3Sum s = .next t → t.digest = sm3 [])
      ∧ ∀ t, exec .sm3Sum s = .next t → ∃ u, exec .sm3Sum t = .next u ∧ u.digest = sm3 []

/-- R97: SM3_COMPRESS: its word, and its effect: V <- CF(V, B) for the 64 bytes B with parse(B) = BLK; BUF, LEN and
BLK unchanged, so repeating it iterates CF over the same block. -/
def Obligations.Sm3CompressResult : Prop :=
  encode .sm3Compress = 0x00000004
  ∧ ∀ s : State,
      (unpackWords s.blk).length = 64 ∧ parseBlock (unpackWords s.blk) = s.blk
      ∧ exec .sm3Compress s =
          .next { s with v := cf s.v (unpackWords s.blk), err := false, errcode := 0, pending := none }
      ∧ ∀ t, exec .sm3Compress s = .next t →
          ∃ u, exec .sm3Compress t = .next u ∧ u.v = cf (cf s.v (unpackWords s.blk)) (unpackWords s.blk)

/-- R98: streaming equals one-shot: from any state with BUSY = 0, SM3_INIT, one SM3_WRITE per piece of 1 to 4 bytes of
a message of at most MAX_LEN bytes, and SM3_SUM leave DIGEST = SM3(M). -/
def Obligations.StreamingEqualsOneShot : Prop :=
  ∀ (pieces : List Piece) (s : State), PiecesOk pieces → (message pieces).length ≤ 2 ^ 61 - 1 → s.busy = false →
    ∃ t, hashPieces pieces s = .next t ∧ t.digest = sm3 (message pieces)

/-- The stream invariant (10_state.md R43): it holds of the empty message at reset and after SM3_INIT and SM3_SUM, a
successful SM3_WRITE appends its bytes to the message, and NOP and the point codec keep it. -/
def Obligations.StreamInvariant : Prop :=
  StreamOf [] State.reset
  ∧ (∀ s t, exec .sm3Init s = .next t ∨ exec .sm3Sum s = .next t → StreamOf [] t)
  ∧ (∀ m s t nb, nb ≤ 4 → StreamOf m s → exec (.sm3Write nb) s = .next t → t.err = false →
      StreamOf (m ++ dinBytes s.din nb) t)
  ∧ (∀ m s t nb, StreamOf m s → exec (.sm3Write nb) s = .next t → t.err = true → StreamOf m t)
  ∧ (∀ m s t i, i ∈ [Instr.nop, .ptDecode, .ptEncode .nocompress, .ptEncode .compress, .ptEncode .mix] →
      StreamOf m s → exec i s = .next t → StreamOf m t)
  ∧ ∀ m s t, StreamOf m s → exec .sm3Sum s = .next t → t.digest = sm3 m

/-- R99: after SM3_SUM the SM3 state equals the state after SM3_INIT, so a new stream gives what a fresh engine
gives. -/
def Obligations.SumLeavesAFreshEngine : Prop :=
  ∀ s t u : State, exec .sm3Sum s = .next t → exec .sm3Init s = .next u →
    t.v = u.v ∧ t.buf = u.buf ∧ t.len = u.len
    ∧ ∀ (pieces : List Piece) (a b : State),
        andThen (writePieces pieces t) (issue .sm3Sum) = .next a →
        andThen (writePieces pieces State.reset) (issue .sm3Sum) = .next b → a.digest = b.digest

/-- Sixteen full-word writes of w0..w15 into an empty buffer do to V what SM3_COMPRESS does with BLK[i] = wi
(20_memory.md R60, 10_state.md R23). -/
def Obligations.SixteenWordsAreTheBlock : Prop :=
  ∀ (s t : State) (ws : Vector Word 16), s.busy = false → s.buf = [] → s.len.toNat + 64 ≤ 2 ^ 61 - 1 →
    writePieces (ws.toList.map fun w => (wordBytes w, 0)) s = .next t →
    t.buf = [] ∧ t.len.toNat = s.len.toNat + 64 ∧
    ∃ u, exec .sm3Compress { s with blk := ws } = .next u ∧ t.v = u.v

/-! ## The point codec (spec/41_sm2_point.md) -/

/-- Decompression (R125): the result is the root of rhs(x) in [0, p) with the wanted parity; NOT_ON_CURVE exactly when
rhs(x) has no root; INVALID_ENCODING exactly when it has roots but none of that parity. The model computes the root by
an exponentiation (log 14); this says that it is the declared one. -/
def Obligations.DecompressIsTheRootOfTheParity : Prop :=
  ∀ x t : Nat, x < Curve.p → t < 2 →
    (∀ y, decompress x t = .ok y ↔ IsRoot x y ∧ y % 2 = t)
    ∧ (decompress x t = .error .notOnCurve ↔ ¬ ∃ y, IsRoot x y)
    ∧ (decompress x t = .error .invalidEncoding ↔ (∃ y, IsRoot x y) ∧ ¬ ∃ y, IsRoot x y ∧ y % 2 = t)

/-- R129: the cubic has no root in GF(p), so every square rhs(x) has two roots of opposite parity, decompression never
raises INVALID_ENCODING, and PT_DECODE of a compressed encoding of the right length with X < p fails only where rhs(X)
has no root. -/
def Obligations.NoPointWithOrdinateZero : Prop :=
  ∀ x : Nat, x < Curve.p →
    rhs x ≠ 0
    ∧ (∀ y, IsRoot x y → IsRoot x (Curve.p - y) ∧ (Curve.p - y) % 2 ≠ y % 2
        ∧ ∀ z, IsRoot x z → z = y ∨ z = Curve.p - y)
    ∧ (∀ t < 2, decompress x t ≠ .error .invalidEncoding)
    ∧ ∀ s t : State, s.pklen = 33 → s.pkb.getD 0 0 ∈ [(0x02 : Byte), 0x03] → x = bytesToNat ((s.pkb.drop 1).take 32) →
        exec .ptDecode s = .next t → (t.err = true ↔ ¬ ∃ y, IsRoot x y)

/-- PT_DECODE of an encoding whose length or prefix is wrong (R126, first checks): INVALID_ENCODING, whatever the rest
of PKB holds, PX and PY unchanged. -/
def Obligations.PtDecodeRejectsLengthAndPrefix : Prop :=
  ∀ s : State,
    (s.pklen = 0
      ∨ s.pkb.getD 0 0 ∉ [(0x02 : Byte), 0x03, 0x04, 0x06, 0x07]
      ∨ (s.pkb.getD 0 0 ∈ [(0x02 : Byte), 0x03] ∧ s.pklen ≠ 33)
      ∨ (s.pkb.getD 0 0 ∈ [(0x04 : Byte), 0x06, 0x07] ∧ s.pklen ≠ 65)) →
    exec .ptDecode s = .next { s with err := true, errcode := 0x2, pending := none }

/-- PT_DECODE of the 65-byte forms (R126): the parity of a mixed form first, then the range of both coordinates, then
the curve equation; on success PXv = x and PYv = y. -/
def Obligations.PtDecodeWithOrdinate : Prop :=
  ∀ (s : State) (pf : Byte) (x y : Nat), s.pklen = 65 → s.pkb.getD 0 0 = pf → pf ∈ [(0x04 : Byte), 0x06, 0x07] →
    x = bytesToNat ((s.pkb.drop 1).take 32) → y = bytesToNat ((s.pkb.drop 33).take 32) →
    (pf ≠ 0x04 → y % 2 ≠ pf.toNat % 2 →
      exec .ptDecode s = .next { s with err := true, errcode := 0x2, pending := none })
    ∧ (pf = 0x04 ∨ y % 2 = pf.toNat % 2 →
      (Curve.p ≤ x ∨ Curve.p ≤ y ∨ y * y % Curve.p ≠ (x ^ 3 + Curve.a * x + Curve.b) % Curve.p →
        exec .ptDecode s = .next { s with err := true, errcode := 0x3, pending := none })
      ∧ (x < Curve.p → y < Curve.p → y * y % Curve.p = (x ^ 3 + Curve.a * x + Curve.b) % Curve.p →
        ∃ px py, exec .ptDecode s = .next { s with px := px, py := py, err := false, errcode := 0, pending := none }
          ∧ coordValue px = x ∧ coordValue py = y))

/-- PT_DECODE of the 33-byte forms (R126): the range of X, then a square root of rhs(X), whose parity the prefix
selects; on success PXv = x and PYv is that root. The INVALID_ENCODING of a missing parity cannot happen: that is
`Obligations.NoPointWithOrdinateZero` (R129). -/
def Obligations.PtDecodeCompressed : Prop :=
  ∀ (s : State) (pf : Byte) (x : Nat), s.pklen = 33 → s.pkb.getD 0 0 = pf → pf ∈ [(0x02 : Byte), 0x03] →
    x = bytesToNat ((s.pkb.drop 1).take 32) →
    (Curve.p ≤ x ∨ (¬ ∃ y, IsRoot x y) →
      exec .ptDecode s = .next { s with err := true, errcode := 0x3, pending := none })
    ∧ (x < Curve.p → ∀ y, IsRoot x y → y % 2 = pf.toNat % 2 →
      ∃ px py, exec .ptDecode s = .next { s with px := px, py := py, err := false, errcode := 0, pending := none }
        ∧ coordValue px = x ∧ coordValue py = y)

/-- R128: a successful PT_DECODE always writes an affine pair on the curve; prefix 0x00 is rejected. -/
def Obligations.DecodedPointIsOnTheCurve : Prop :=
  (∀ s t : State, exec .ptDecode s = .next t → t.err = false →
    coordValue t.px < Curve.p ∧ coordValue t.py < Curve.p
    ∧ coordValue t.py ^ 2 % Curve.p
        = (coordValue t.px ^ 3 + Curve.a * coordValue t.px + Curve.b) % Curve.p)
  ∧ ∀ s t : State, s.pkb.getD 0 0 = 0x00 → exec .ptDecode s = .next t → t.err = true

/-- R127: PT_ENCODE: its words, and its effect: prefix, bytes32(x) and for two modes bytes32(y), zeros after them, the
length in PKLEN; it never fails and validates nothing. -/
def Obligations.PtEncodeResult : Prop :=
  encode (.ptEncode .nocompress) = 0x00000011 ∧ encode (.ptEncode .compress) = 0x00001011
  ∧ encode (.ptEncode .mix) = 0x00002011
  ∧ ∀ (s : State) (mode : EncMode),
      ∃ t, exec (.ptEncode mode) s = .next t
        ∧ t = { s with pk := t.pk, pklen := t.pklen, err := false, errcode := 0, pending := none }
        ∧ ∃ x y : List Byte, x = unpackWords s.px ∧ y = unpackWords s.py
          ∧ bytesToNat x = coordValue s.px ∧ bytesToNat y = coordValue s.py
          ∧ match mode with
            | .nocompress => t.pklen = 65 ∧ t.pkb = [0x04] ++ x ++ y ++ List.replicate 3 0
            | .compress =>
              t.pklen = 33
              ∧ t.pkb = [if s.py[7].getLsbD 0 then 0x03 else 0x02] ++ x ++ List.replicate 35 0
            | .mix =>
              t.pklen = 65
              ∧ t.pkb = [if s.py[7].getLsbD 0 then 0x07 else 0x06] ++ x ++ y ++ List.replicate 3 0

/-- R130: for every point of the curve and every mode, PT_ENCODE followed by PT_DECODE restores the point, with
ERR = 0. -/
def Obligations.PointCodecRoundTrip : Prop :=
  ∀ (s : State) (mode : EncMode), onCurve (coordValue s.px) (coordValue s.py) = true →
    ∃ t u, exec (.ptEncode mode) s = .next t ∧ exec .ptDecode t = .next u
      ∧ u.px = s.px ∧ u.py = s.py ∧ u.err = false

/-! ## NOP, errors and frames (spec/42_control.md, spec/60_exceptions.md, spec/30_encoding.md R74) -/

/-- R151: NOP: its word, nothing but STATUS changes, and issued to an idle engine it clears ERR, ERRCODE and BERR. -/
def Obligations.NopResult : Prop :=
  encode .nop = 0x00000000
  ∧ ∀ s : State,
      exec .nop s = .next { s with err := false, errcode := 0, pending := none }
      ∧ (s.busy = false → ∀ t, issue .nop s = .next t → t.status = 0#18 ++ s.bufcnt ++ 0#8)

/-- R171: a command that fails is precise: the state after it equals the state before it, except ERR, ERRCODE and
PENDING (BUSY); this holds of every command word. -/
def Obligations.FailedCommandIsPrecise : Prop :=
  ∀ (s t : State) (c : Word), complete c s = .next t → t.err = true →
    ∃ e : ErrorKind, t = { s with err := true, errcode := e.code, pending := none }

/-- Which errors a command can report (60_exceptions.md R170, R174): an illegal word ILLEGAL_COMMAND only, SM3_WRITE
HASH_STATE only, PT_DECODE INVALID_ENCODING or NOT_ON_CURVE, the others nothing; ERR = 1 exactly with a code. -/
def Obligations.ErrorsOfEachCommand : Prop :=
  ∀ (s t : State) (c : Word), complete c s = .next t →
    (t.err = true ↔ t.errcode ≠ 0)
    ∧ (∀ r, decode c = .error r → t.errcode = 0x1)
    ∧ (∀ nb, decode c = .ok (.sm3Write nb) → t.errcode = 0 ∨ t.errcode = 0x4)
    ∧ (decode c = .ok .ptDecode → t.errcode = 0 ∨ t.errcode = 0x2 ∨ t.errcode = 0x3)
    ∧ (∀ i, decode c = .ok i → (∀ nb, i ≠ .sm3Write nb) → i ≠ .ptDecode → t.errcode = 0)

/-- The frame of every command (R74, 10_state.md R42): it leaves unchanged every register it does not write, BERR, the
operands, the host and the model's own fields, and it empties PENDING. -/
def Obligations.CommandFrames : Prop :=
  ∀ (s t : State) (i : Instr), exec i s = .next t → FrameOf i s t ∧ t.pending = none

/-- The operands of every command (R74; determinism R100): two states that agree on the registers a command reads give
the same error, and when it succeeds the same values in the registers it writes. -/
def Obligations.CommandReadsOnlyItsOperands : Prop :=
  ∀ (i : Instr) (s s' t t' : State), i.wellFormed = true → AgreeOnReads i s s' →
    exec i s = .next t → exec i s' = .next t' →
    t.err = t'.err ∧ t.errcode = t'.errcode ∧ (t.err = false → AgreeOnWrites i t t')
end

