-- ==== Sys2Proof/Laws/Prime.lean ====
section
/-! SUPPORT. The field prime p of the SM2 curve is a prime number. p + 1 = 2^64 (2^32 − 1)(2^160 − 1) has many small
prime factors, so an element of norm 1 of GF(q)[i] whose order is a large factor F of p + 1 shows that every prime
divisor q of p has F ≤ q + 1, which leaves no divisor up to the square root of p. -/

namespace Sys2Proof.Machine.CurvePrime

/-- The product of (a + bi) and (c + di), parts reduced modulo p. -/
def gmul (z w : Nat × Nat) : Nat × Nat :=
  ((z.1 * w.1 + (Curve.p - z.2 % Curve.p) * w.2) % Curve.p, (z.1 * w.2 + z.2 * w.1) % Curve.p)

/-- z^e for an exponent below 2^fuel, times an accumulator. -/
def gpowLoop : Nat → Nat × Nat → Nat → Nat × Nat → Nat × Nat
  | 0, _, _, acc => acc
  | fuel + 1, z, e, acc => gpowLoop fuel (gmul z z) (e / 2) (if e % 2 = 1 then gmul acc z else acc)

/-- z^e for an exponent below 2^160. -/
def gpow (z : Nat × Nat) (e : Nat) : Nat × Nat := gpowLoop 160 z e (1, 0)

/-- The element of norm 1. -/
def elt : Nat × Nat :=
  (0x22dc1c6acd9b1dfb0e0ad8c7fd4df95372d19e1f682c228ddb5f1aa0cb1b0198,
   0xa83958b3b69d34a35e42fb95e185c042e87f092384b39e3aece073180e335a28)

/-- The large factor of p + 1. -/
def ord : Nat := 2 ^ 64 * (3 * (5 * (17 * (257 * (65537 * (61681 * 414721))))))

/-- The squared distance from 1, as far as it matters modulo p. -/
def gap (z : Nat × Nat) : Nat := (z.1 + (Curve.p - 1)) ^ 2 + z.2 ^ 2

section Field

variable {K : Type} [Field K] (i : K)

/-- The value of a pair in a field with a root i of −1. -/
def val (z : Nat × Nat) : K := (z.1 : K) + (z.2 : K) * i

variable {i} (hi : i * i = -1) (hp : ((Curve.p : Nat) : K) = 0)
include hp in
theorem cast_mod (n : Nat) : ((n % Curve.p : Nat) : K) = (n : K) := by
  conv_rhs => rw [← Nat.div_add_mod n Curve.p]
  rw [Nat.cast_add, Nat.cast_mul, hp, zero_mul, zero_add]

include hi hp

theorem val_gmul (z w : Nat × Nat) : val i (gmul z w) = val i z * val i w := by
  have hlt : z.2 % Curve.p ≤ Curve.p := (Nat.mod_lt _ (by decide)).le
  simp only [val, gmul, cast_mod hp, Nat.cast_add, Nat.cast_mul]
  rw [Nat.cast_sub hlt, hp, cast_mod hp]
  linear_combination (-(z.2 : K) * w.2) * hi

theorem val_gpowLoop (fuel : Nat) (z : Nat × Nat) (e : Nat) (acc : Nat × Nat) (he : e < 2 ^ fuel) :
    val i (gpowLoop fuel z e acc) = val i acc * val i z ^ e := by
  induction fuel generalizing z e acc with
  | zero => simp at he; simp [gpowLoop, he]
  | succ fuel ih =>
    rw [gpowLoop, ih _ _ _ (by omega), val_gmul hi hp, ← sq, ← pow_mul]
    rcases Nat.mod_two_eq_zero_or_one e with h | h
    · rw [if_neg (by omega), show 2 * (e / 2) = e by omega]
    · rw [if_pos h, val_gmul hi hp, mul_assoc, ← pow_succ', show 2 * (e / 2) + 1 = e by omega]

theorem val_gpow (z : Nat × Nat) (e : Nat) (he : e < 2 ^ 160) : val i (gpow z e) = val i z ^ e := by
  rw [gpow, val_gpowLoop hi hp _ _ _ _ he]
  simp [val]

/-- A pair whose distance from 1 is prime to p is not 1. -/
theorem val_ne_one (z : Nat × Nat) (h : Nat.Coprime (gap z) Curve.p) : val i z ≠ 1 := by
  intro e
  have h0 : ((gap z : Nat) : K) = 0 := by
    have hc : ((Curve.p - 1 : Nat) : K) = -1 := by rw [Nat.cast_sub (by decide), hp]; simp
    simp only [gap, Nat.cast_add, Nat.cast_pow, hc]
    have e' : (z.1 : K) + -1 = -((z.2 : K) * i) := by rw [val] at e; linear_combination e
    rw [e']
    linear_combination ((z.2 : K) ^ 2) * hi
  have hb := Nat.gcd_eq_gcd_ab (gap z) Curve.p
  rw [Nat.Coprime] at h
  rw [h] at hb
  have := congrArg (Int.cast : Int → K) hb
  push_cast at this
  rw [h0, hp] at this
  simp at this

end Field

theorem elt_norm : (elt.1 ^ 2 + elt.2 ^ 2) % Curve.p = 1 := by decide +kernel
theorem elt_pow : gpow elt ord = (1, 0) := by decide +kernel

theorem gap_of_prime : ∀ r ∈ [2, 3, 5, 17, 257, 65537, 61681, 414721],
    Nat.Coprime (gap (gpow elt (ord / r))) Curve.p ∧ ord / r < 2 ^ 160 := by decide +kernel

/-- The prime factors of the large factor. -/
theorem prime_dvd_ord (r : Nat) (hr : r.Prime) (h : r ∣ ord) : r ∈ [2, 3, 5, 17, 257, 65537, 61681, 414721] := by
  have p3 : Nat.Prime 3 := by norm_num
  have p5 : Nat.Prime 5 := by norm_num
  have p17 : Nat.Prime 17 := by norm_num
  have p257 : Nat.Prime 257 := by norm_num
  have p65537 : Nat.Prime 65537 := by norm_num
  have p61681 : Nat.Prime 61681 := by norm_num
  have p414721 : Nat.Prime 414721 := by norm_num
  rw [ord, hr.dvd_mul, hr.dvd_mul, hr.dvd_mul, hr.dvd_mul, hr.dvd_mul, hr.dvd_mul, hr.dvd_mul] at h
  rcases h with h | h | h | h | h | h | h | h
  · have := (Nat.prime_dvd_prime_iff_eq hr Nat.prime_two).1 (hr.dvd_of_dvd_pow h)
    simp [this]
  · have := (Nat.prime_dvd_prime_iff_eq hr p3).1 h; simp [this]
  · have := (Nat.prime_dvd_prime_iff_eq hr p5).1 h; simp [this]
  · have := (Nat.prime_dvd_prime_iff_eq hr p17).1 h; simp [this]
  · have := (Nat.prime_dvd_prime_iff_eq hr p257).1 h; simp [this]
  · have := (Nat.prime_dvd_prime_iff_eq hr p65537).1 h; simp [this]
  · have := (Nat.prime_dvd_prime_iff_eq hr p61681).1 h; simp [this]
  · have := (Nat.prime_dvd_prime_iff_eq hr p414721).1 h; simp [this]

/-- Every odd prime divisor of p is at least the large factor less one. -/
theorem ord_le_of_prime_dvd (q : Nat) (hq : q.Prime) (hqp : q ∣ Curve.p) (h2 : q ≠ 2) : ord ≤ q + 1 := by
  have := Fact.mk hq
  let K := AlgebraicClosure (ZMod q)
  have : CharP K q := charP_of_injective_algebraMap (algebraMap (ZMod q) K).injective q
  obtain ⟨i, hi⟩ := IsAlgClosed.exists_pow_nat_eq (-1 : K) (n := 2) (by norm_num)
  replace hi : i * i = -1 := by rw [← sq]; exact hi
  have hp : ((Curve.p : Nat) : K) = 0 := (CharP.cast_eq_zero_iff K q _).2 hqp
  have hone : val i (1, 0) = (1 : K) := by simp [val]
  have hpow : val i elt ^ ord = (1 : K) := by rw [← val_gpow hi hp elt ord (by decide), elt_pow, hone]
  have hord : orderOf (val i elt : K) = ord := by
    refine orderOf_eq_of_pow_and_pow_div_prime (by decide) hpow fun r hr hd => ?_
    have hg := gap_of_prime r (prime_dvd_ord r hr hd)
    rw [← val_gpow hi hp elt _ hg.2]
    exact val_ne_one hi hp _ hg.1
  have hnorm : (elt.1 : K) ^ 2 + (elt.2 : K) ^ 2 = 1 := by
    have := cast_mod hp (elt.1 ^ 2 + elt.2 ^ 2)
    rw [elt_norm] at this
    push_cast at this
    exact this.symm
  have hne : val i elt ≠ (0 : K) := by
    intro h
    rw [h, zero_pow (by decide)] at hpow
    exact zero_ne_one hpow
  have hfrob : val i elt ^ q = (elt.1 : K) + (elt.2 : K) * i ^ q := by
    rw [val, add_pow_char, mul_pow]
    have h1 := map_natCast (frobenius K q) elt.1
    have h2 := map_natCast (frobenius K q) elt.2
    rw [frobenius_def] at h1 h2
    rw [h1, h2]
  have hodd : q % 2 = 1 := hq.eq_two_or_odd.resolve_left h2
  have hiq : i ^ q = i ∨ i ^ q = -i := by
    have : i ^ (2 * (q / 2) + 1) = (-1) ^ (q / 2) * i := by rw [pow_succ, pow_mul, sq, hi]
    rw [show 2 * (q / 2) + 1 = q by omega] at this
    rcases neg_one_pow_eq_or K (q / 2) with h | h
    · left; rw [this, h, one_mul]
    · right; rw [this, h]; ring
  rcases hiq with h | h
  · have e : val i elt ^ (q - 1) = (1 : K) := by
      have : val i elt ^ (q - 1) * val i elt = val i elt := by
        rw [← pow_succ, Nat.sub_add_cancel hq.one_le, hfrob, h, val]
      exact mul_right_cancel₀ hne (by rw [this, one_mul])
    have := Nat.le_of_dvd (by have := hq.two_le; omega) (hord ▸ orderOf_dvd_of_pow_eq_one e)
    omega
  · have e : val i elt ^ (q + 1) = (1 : K) := by
      rw [pow_succ, hfrob, h, val]
      linear_combination hnorm - ((elt.2 : K) ^ 2) * hi
    exact Nat.le_of_dvd (by omega) (hord ▸ orderOf_dvd_of_pow_eq_one e)

/-- A divisor that leaves the large factor below it is above the square root of p. -/
theorem p_lt_sq (q : Nat) (h : ord ≤ q + 1) : Curve.p < q ^ 2 := by
  have hb : Curve.p < (2 ^ 129) ^ 2 := by decide
  have ho : 2 ^ 129 + 1 ≤ ord := by decide
  have hq : 2 ^ 129 ≤ q := by
    have := ho.trans h
    exact Nat.le_of_succ_le_succ this
  exact lt_of_lt_of_le hb (pow_le_pow_left' hq 2)

/-- The field prime of R120 is a prime number. -/
theorem prime_p : Nat.Prime Curve.p := by
  by_contra hn
  have hne : Curve.p ≠ 1 := by decide
  have hd := Nat.minFac_dvd Curve.p
  have hsq := Nat.minFac_sq_le_self (by decide) hn
  have h2 : Nat.minFac Curve.p ≠ 2 := by
    intro h
    rw [h] at hd
    exact absurd hd (by decide)
  exact absurd hsq (not_le.2 (p_lt_sq _ (ord_le_of_prime_dvd _ (Nat.minFac_prime hne) hd h2)))

end Sys2Proof.Machine.CurvePrime
end

