-- ==== Sys2Proof/Laws/Words.lean ====
section
/-! SUPPORT. The byte and integer views of registers: packing and unpacking words, big-endian values of bytes and
words (spec/00_scope.md R12, spec/20_memory.md R60 to R63). -/

namespace Sys2Proof.Machine

/-! ## One word -/

/-- The value of two parts put together. -/
theorem toNat_append_eq {m n : Nat} (x : BitVec m) (y : BitVec n) : (x ++ y).toNat = x.toNat * 2 ^ n + y.toNat := by
  rw [BitVec.toNat_append, ← Nat.shiftLeft_add_eq_or_of_lt y.isLt, Nat.shiftLeft_eq]

/-- The value of a field of bits. -/
theorem extract_toNat {n : Nat} (w : BitVec n) (i k : Nat) : (w.extractLsb' i k).toNat = w.toNat / 2 ^ i % 2 ^ k := by
  rw [BitVec.extractLsb'_toNat, Nat.shiftRight_eq_div_pow]

/-- `be32` as R12 writes it. -/
theorem be32_toNat (b0 b1 b2 b3 : Byte) :
    (be32 b0 b1 b2 b3).toNat = ((b0.toNat * 256 + b1.toNat) * 256 + b2.toNat) * 256 + b3.toNat :=
  (toNat_append_eq (b0 ++ b1 ++ b2) b3).trans <| by
    rw [toNat_append_eq (b0 ++ b1) b2, toNat_append_eq b0 b1]; norm_num

@[simp] theorem wordBytes_length (w : Word) : (wordBytes w).length = 4 := rfl

/-- The bytes of a word put together from four bytes are those bytes. -/
@[simp] theorem wordBytes_be32 (b0 b1 b2 b3 : Byte) : wordBytes (be32 b0 b1 b2 b3) = [b0, b1, b2, b3] := by
  have h := be32_toNat b0 b1 b2 b3
  have := b0.isLt; have := b1.isLt; have := b2.isLt; have := b3.isLt
  simp only [wordBytes, List.cons.injEq, and_true]
  refine ⟨?_, ?_, ?_, ?_⟩ <;> (apply BitVec.eq_of_toNat_eq; rw [extract_toNat]; omega)

/-- A word is put together from its bytes. -/
theorem be32_wordBytes (w : Word) :
    be32 (w.extractLsb' 24 8) (w.extractLsb' 16 8) (w.extractLsb' 8 8) (w.extractLsb' 0 8) = w := by
  apply BitVec.eq_of_toNat_eq
  have := w.isLt
  simp only [be32_toNat, extract_toNat]
  omega

/-- Byte k of a word, most significant first. -/
theorem wordBytes_getElem? (w : Word) (k : Fin 4) : (wordBytes w)[k.val]? = some (w.extractLsb' (24 - 8 * k.val) 8) := by
  fin_cases k <;> rfl

theorem dinBytes_length (w : Word) (nb : Nat) (h : nb ≤ 4) : (dinBytes w nb).length = nb := by
  simp [dinBytes, h]

/-! ## Arrays of words -/

theorem flatMap_wordBytes_length (l : List Word) : (l.flatMap wordBytes).length = 4 * l.length := by
  induction l with
  | nil => rfl
  | cons w l ih => rw [List.flatMap_cons, List.length_append, ih, wordBytes_length, List.length_cons]; omega

@[simp] theorem unpackWords_length {n : Nat} (ws : Vector Word n) : (unpackWords ws).length = 4 * n := by
  rw [unpackWords, flatMap_wordBytes_length, Vector.length_toList]

/-- Byte 4i + k of an array of words is byte k of word i. -/
theorem flatMap_wordBytes_getElem? (l : List Word) (i : Nat) (k : Fin 4) (h : i < l.length) :
    (l.flatMap wordBytes)[4 * i + k.val]? = some (l[i].extractLsb' (24 - 8 * k.val) 8) := by
  induction l generalizing i with
  | nil => simp at h
  | cons w l ih =>
    rw [List.flatMap_cons]
    cases i with
    | zero =>
      rw [List.getElem?_append_left (by simp [k.isLt])]
      simpa using wordBytes_getElem? w k
    | succ i =>
      rw [List.getElem?_append_right (by simp; omega), wordBytes_length,
        show 4 * (i + 1) + k.val - 4 = 4 * i + k.val by omega, ih i (by simpa using h)]
      simp

theorem unpackWords_getElem? {n : Nat} (ws : Vector Word n) (i : Fin n) (k : Fin 4) :
    (unpackWords ws)[4 * i.val + k.val]? = some (ws[i].extractLsb' (24 - 8 * k.val) 8) := by
  rw [unpackWords, flatMap_wordBytes_getElem? ws.toList i.val k (by simp)]
  simp

theorem unpackWords_getD {n : Nat} (ws : Vector Word n) (i : Fin n) (k : Fin 4) :
    (unpackWords ws).getD (4 * i.val + k.val) 0 = ws[i].extractLsb' (24 - 8 * k.val) 8 := by
  rw [List.getD_eq_getElem?_getD, unpackWords_getElem? ws i k, Option.getD_some]

/-- Packing the bytes of an array of words gives the array back. -/
@[simp] theorem packWords_unpackWords {n : Nat} (ws : Vector Word n) : packWords n (unpackWords ws) = ws := by
  ext i hi
  have h0 : (unpackWords ws).getD (4 * i) 0 = ws[i].extractLsb' 24 8 := unpackWords_getD ws ⟨i, hi⟩ 0
  have h1 : (unpackWords ws).getD (4 * i + 1) 0 = ws[i].extractLsb' 16 8 := unpackWords_getD ws ⟨i, hi⟩ 1
  have h2 : (unpackWords ws).getD (4 * i + 2) 0 = ws[i].extractLsb' 8 8 := unpackWords_getD ws ⟨i, hi⟩ 2
  have h3 : (unpackWords ws).getD (4 * i + 3) 0 = ws[i].extractLsb' 0 8 := unpackWords_getD ws ⟨i, hi⟩ 3
  rw [packWords, Vector.getElem_ofFn, h0, h1, h2, h3, be32_wordBytes]

/-- Word i of a packed byte string has the bytes 4i to 4i + 3. -/
theorem packWords_bytes {n : Nat} (bs : List Byte) (i : Nat) (h : i < n) :
    wordBytes (packWords n bs)[i] =
      [bs.getD (4 * i) 0, bs.getD (4 * i + 1) 0, bs.getD (4 * i + 2) 0, bs.getD (4 * i + 3) 0] := by
  rw [packWords, Vector.getElem_ofFn, wordBytes_be32]

/-- Unpacking a packed byte string gives it back, filled with zeros. -/
theorem unpackWords_packWords {n : Nat} (bs : List Byte) (h : bs.length ≤ 4 * n) :
    unpackWords (packWords n bs) = bs ++ List.replicate (4 * n - bs.length) 0 := by
  apply List.ext_getElem?
  intro j
  by_cases hj : j < 4 * n
  · have hi : j / 4 < n := by omega
    have e := unpackWords_getElem? (packWords n bs) ⟨j / 4, hi⟩ ⟨j % 4, by omega⟩
    have hb := packWords_bytes (n := n) bs (j / 4) hi
    have hw := wordBytes_getElem? (packWords n bs)[j / 4] ⟨j % 4, by omega⟩
    simp only at e hw
    rw [show 4 * (j / 4) + j % 4 = j by omega] at e
    rw [e]
    change some ((packWords n bs)[j / 4].extractLsb' (24 - 8 * (j % 4)) 8) = _
    rw [← hw, hb]
    have hd : (bs ++ List.replicate (4 * n - bs.length) 0)[j]? = some (bs.getD j 0) := by
      by_cases hl : j < bs.length
      · rw [List.getElem?_append_left hl, List.getD_eq_getElem?_getD, List.getElem?_eq_getElem hl, Option.getD_some]
      · rw [List.getElem?_append_right (by omega), List.getElem?_replicate, if_pos (by omega),
          List.getD_eq_getElem?_getD, List.getElem?_eq_none (by omega), Option.getD_none]
    rw [hd]
    have hm : j % 4 = 0 ∨ j % 4 = 1 ∨ j % 4 = 2 ∨ j % 4 = 3 := by omega
    rcases hm with hm | hm | hm | hm <;> rw [hm] <;> simp <;> congr 2 <;> omega
  · rw [List.getElem?_eq_none (by simp; omega), List.getElem?_eq_none (by simp; omega)]

/-! ## Big-endian values -/

/-- A positional value, base B, with a starting value. -/
theorem foldl_base {α : Type} (B : Nat) (f : α → Nat) (l : List α) (a : Nat) :
    l.foldl (fun acc x => acc * B + f x) a = a * B ^ l.length + l.foldl (fun acc x => acc * B + f x) 0 := by
  induction l generalizing a with
  | nil => simp
  | cons x l ih =>
    rw [List.foldl_cons, List.foldl_cons, ih, ih (0 * B + f x), List.length_cons, pow_succ]
    ring

theorem foldl_base_lt {α : Type} (B : Nat) (f : α → Nat) (hf : ∀ x, f x < B) (l : List α) :
    l.foldl (fun acc x => acc * B + f x) 0 < B ^ l.length := by
  induction l with
  | nil => simp
  | cons x l ih =>
    rw [List.foldl_cons, foldl_base, List.length_cons, pow_succ]
    have := hf x
    calc (0 * B + f x) * B ^ l.length + _ < (0 * B + f x) * B ^ l.length + B ^ l.length := by omega
      _ = (f x + 1) * B ^ l.length := by ring
      _ ≤ B * B ^ l.length := Nat.mul_le_mul_right _ this
      _ = B ^ l.length * B := by ring

theorem bytesToNat_append (a b : List Byte) : bytesToNat (a ++ b) = bytesToNat a * 256 ^ b.length + bytesToNat b := by
  rw [bytesToNat, List.foldl_append, foldl_base]
  rfl

theorem bytesToNat_lt (a : List Byte) : bytesToNat a < 256 ^ a.length :=
  foldl_base_lt 256 _ (fun b => b.isLt) a

@[simp] theorem natToBytes_length (n v : Nat) : (natToBytes n v).length = n := by simp [natToBytes]

/-- One byte more of a big-endian encoding stands before the others. -/
theorem natToBytes_succ (n v : Nat) : natToBytes (n + 1) v = BitVec.ofNat 8 (v / 256 ^ n) :: natToBytes n v := by
  simp only [natToBytes, List.range_succ_eq_map, List.map_cons, List.map_map]
  congr 1
  apply List.map_congr_left
  intro k hk
  simp only [Function.comp_apply]
  congr 3
  omega

/-- The value of the n-byte encoding: v modulo 2^(8n). -/
theorem bytesToNat_natToBytes (n v : Nat) : bytesToNat (natToBytes n v) = v % 256 ^ n := by
  induction n with
  | zero => simp [natToBytes, bytesToNat, Nat.mod_one]
  | succ n ih =>
    have := bytesToNat_append [BitVec.ofNat 8 (v / 256 ^ n)] (natToBytes n v)
    rw [natToBytes_succ, ← List.singleton_append, this, ih, natToBytes_length, pow_succ, Nat.mod_mul]
    simp [bytesToNat]
    ring

/-- Byte strings of one length with one value are equal. -/
theorem bytesToNat_inj : ∀ (a b : List Byte), a.length = b.length → bytesToNat a = bytesToNat b → a = b
  | [], [], _, _ => rfl
  | x :: a, y :: b, hl, hv => by
    have hl' : a.length = b.length := by simpa using hl
    rw [← List.singleton_append, ← List.singleton_append (l := b), bytesToNat_append, bytesToNat_append, hl'] at hv
    have ha := bytesToNat_lt a
    have hb := bytesToNat_lt b
    rw [hl'] at ha
    simp only [bytesToNat, List.foldl_cons, List.foldl_nil, Nat.zero_mul, Nat.zero_add] at hv ha hb
    have hp : 0 < 256 ^ b.length := by positivity
    have h1 : x.toNat = y.toNat := by
      have e1 := congrArg (· / 256 ^ b.length) hv
      simp only [Nat.mul_comm _ (256 ^ b.length)] at e1
      rw [Nat.mul_add_div hp, Nat.mul_add_div hp, Nat.div_eq_of_lt ha, Nat.div_eq_of_lt hb] at e1
      simpa using e1
    rw [h1] at hv
    rw [BitVec.eq_of_toNat_eq h1, bytesToNat_inj a b hl' (by simpa [bytesToNat] using hv)]

/-- The 32-byte encoding of the value of 32 bytes is those bytes. -/
theorem natToBytes_bytesToNat (n : Nat) (bs : List Byte) (h : bs.length = n) : natToBytes n (bytesToNat bs) = bs := by
  apply bytesToNat_inj _ _ (by simp [h])
  rw [bytesToNat_natToBytes, Nat.mod_eq_of_lt (h ▸ bytesToNat_lt bs)]

theorem bytesToNat_wordBytes (w : Word) : bytesToNat (wordBytes w) = w.toNat := by
  have := w.isLt
  simp only [bytesToNat, wordBytes, List.foldl_cons, List.foldl_nil, extract_toNat]
  omega

theorem bytesToNat_flatMap (l : List Word) :
    bytesToNat (l.flatMap wordBytes) = l.foldl (fun acc w => acc * 2 ^ 32 + w.toNat) 0 := by
  induction l using List.reverseRecOn with
  | nil => rfl
  | append_singleton l w ih =>
    rw [List.flatMap_append, bytesToNat_append, ih, List.foldl_append]
    simp [bytesToNat_wordBytes]

/-- The value of a coordinate is the value of its 32 bytes (R61). -/
theorem bytesToNat_unpackWords (ws : Vector Word 8) : bytesToNat (unpackWords ws) = coordValue ws :=
  bytesToNat_flatMap ws.toList

/-- The positional value of eight words as a sum (R61). -/
theorem foldl_eight_words (B : Nat) (l : List Word) (hl : l.length = 8) :
    l.foldl (fun acc w => acc * B + w.toNat) 0 =
      ((List.finRange 8).map fun i : Fin 8 => (l[i.val]'(by omega)).toNat * B ^ (7 - i.val)).sum := by
  match l, hl with
  | [a, b, c, d, e, f, g, h], _ =>
    rw [show List.finRange 8 = [0, 1, 2, 3, 4, 5, 6, 7] by rfl]
    simp
    ring

/-- The parity of a coordinate is bit 0 of its last word (10_state.md R26). -/
theorem coordValue_mod_two (ws : Vector Word 8) : coordValue ws % 2 = (ws[7].getLsbD 0).toNat := by
  have key : ∀ l : List Word, (hl : l.length = 8) →
      l.foldl (fun acc w => acc * 2 ^ 32 + w.toNat) 0 % 2 = ((l[7]'(by omega)).getLsbD 0).toNat := by
    intro l hl
    obtain ⟨init, last, rfl⟩ : ∃ init last, l = init ++ [last] :=
      ⟨l.dropLast, l.getLast (by rintro rfl; simp at hl), (List.dropLast_append_getLast _).symm⟩
    have h7 : init.length = 7 := by simpa using hl
    rw [List.foldl_append, List.getElem_append_right (by omega)]
    simp only [List.foldl_cons, List.foldl_nil, h7, Nat.sub_self, List.getElem_cons_zero, BitVec.getLsbD, Nat.testBit_zero]
    rcases Nat.mod_two_eq_zero_or_one last.toNat with k | k <;> simp [k] <;> omega
  have := key ws.toList (by simp)
  rwa [Vector.getElem_toList] at this

theorem coordValue_lt (ws : Vector Word 8) : coordValue ws < 2 ^ 256 := by
  have := bytesToNat_lt (unpackWords ws)
  rw [bytesToNat_unpackWords, unpackWords_length] at this
  exact this

/-- Eight words with one value are equal. -/
theorem coordValue_inj {a b : Vector Word 8} (h : coordValue a = coordValue b) : a = b := by
  have := bytesToNat_inj (unpackWords a) (unpackWords b) (by simp) (by simpa [bytesToNat_unpackWords] using h)
  rw [← packWords_unpackWords a, this, packWords_unpackWords]

/-- The words of a value below 2^256 have that value (R126). -/
theorem coordValue_coordWords (x : Nat) (h : x < 2 ^ 256) : coordValue (coordWords x) = x := by
  have e : (coordWords x).toList = [BitVec.ofNat 32 (x / 2 ^ 224), BitVec.ofNat 32 (x / 2 ^ 192),
      BitVec.ofNat 32 (x / 2 ^ 160), BitVec.ofNat 32 (x / 2 ^ 128), BitVec.ofNat 32 (x / 2 ^ 96),
      BitVec.ofNat 32 (x / 2 ^ 64), BitVec.ofNat 32 (x / 2 ^ 32), BitVec.ofNat 32 (x / 2 ^ 0)] := by
    rw [coordWords, Vector.toList_ofFn]
    rfl
  simp only [coordValue, e, List.foldl_cons, List.foldl_nil, BitVec.toNat_ofNat]
  omega

theorem coordWords_coordValue (ws : Vector Word 8) : coordWords (coordValue ws) = ws :=
  coordValue_inj (coordValue_coordWords _ (coordValue_lt ws))

/-- bytes32 of a coordinate register is its bytes. -/
theorem natToBytes_coordValue (ws : Vector Word 8) : natToBytes 32 (coordValue ws) = unpackWords ws := by
  rw [← bytesToNat_unpackWords, natToBytes_bytesToNat 32 _ (by simp)]

end Sys2Proof.Machine
end

