-- ==== Sys2Proof/Laws/Curve.lean ====
section
/-! SUPPORT. The arithmetic of the point codec: modular powers, the square roots of a field element, and the cubic of
the curve, which has no root in the field (spec/41_sm2_point.md R125, R129). -/

namespace Sys2Proof.Machine

/-! ## Modular powers -/

theorem powModLoop_eq (m fuel base e acc : Nat) (he : e < 2 ^ fuel) :
    powModLoop m fuel base e acc % m = acc * base ^ e % m := by
  induction fuel generalizing base e acc with
  | zero => simp at he; simp [powModLoop, he]
  | succ fuel ih =>
    have hb : ∀ k, (base * base % m) ^ k % m = (base * base) ^ k % m := fun k => (Nat.pow_mod _ k m).symm
    rw [powModLoop, ih _ _ _ (by omega), Nat.mul_mod, hb]
    rcases Nat.mod_two_eq_zero_or_one e with h | h
    · rw [if_neg (by omega), ← Nat.mul_mod, ← pow_two, ← pow_mul, show 2 * (e / 2) = e by omega]
    · rw [if_pos h, Nat.mod_mod, ← Nat.mul_mod, ← pow_two, ← pow_mul, mul_assoc, ← pow_succ',
        show 2 * (e / 2) + 1 = e by omega]

theorem powModLoop_lt (m fuel base e acc : Nat) (hm : 0 < m) (ha : acc < m) : powModLoop m fuel base e acc < m := by
  induction fuel generalizing base e acc with
  | zero => exact ha
  | succ fuel ih =>
    rw [powModLoop]
    apply ih
    split
    · exact Nat.mod_lt _ hm
    · exact ha

theorem powMod_eq (base e m : Nat) (hm : 1 < m) (he : e < 2 ^ 256) : powMod base e m = base ^ e % m := by
  have h := powModLoop_eq m 256 (base % m) e (1 % m) he
  rw [Nat.mod_eq_of_lt hm, one_mul, ← Nat.pow_mod, Nat.mod_eq_of_lt (powModLoop_lt m 256 _ e 1 (by omega) hm)] at h
  rw [powMod, Nat.mod_eq_of_lt hm, h]

/-! ## Square roots -/

theorem rootCandidate_eq (r : Nat) : rootCandidate r = r ^ ((Curve.p + 1) / 4) % Curve.p :=
  powMod_eq _ _ _ (by decide) (by decide)

theorem rootCandidate_lt (r : Nat) : rootCandidate r < Curve.p := by
  rw [rootCandidate_eq]; exact Nat.mod_lt _ (by decide)

theorem p_odd : Curve.p % 2 = 1 := by decide

/-- p − y is a root with y. -/
theorem neg_root {r y : Nat} (hy : y < Curve.p) (h : y * y % Curve.p = r) :
    (Curve.p - y) * (Curve.p - y) % Curve.p = r := by
  have e : (Curve.p - y) * (Curve.p - y) = y * y + Curve.p * (Curve.p - 2 * y) ∨
      (Curve.p - y) * (Curve.p - y) + Curve.p * (2 * y - Curve.p) = y * y := by
    rcases le_total (2 * y) Curve.p with h2 | h2
    · left; zify [hy.le, h2]; ring
    · right; zify [hy.le, h2]; ring
  rcases e with e | e
  · rw [e, Nat.add_mul_mod_self_left, h]
  · rw [← h, ← e, Nat.add_mul_mod_self_left]

/-- Two roots of one element are equal or opposite: p is prime. -/
theorem root_unique {r y z : Nat} (hy : y < Curve.p) (hz : z < Curve.p) (h : y * y % Curve.p = r)
    (h' : z * z % Curve.p = r) : z = y ∨ z = (Curve.p - y) % Curve.p := by
  have := Fact.mk CurvePrime.prime_p
  have e : ((z : ZMod Curve.p)) * z = y * y := by
    have := (ZMod.natCast_eq_natCast_iff' (z * z) (y * y) Curve.p).2 (h'.trans h.symm)
    exact_mod_cast this
  rcases mul_self_eq_mul_self_iff.1 e with e | e
  · left
    have := (ZMod.natCast_eq_natCast_iff' z y Curve.p).1 e
    rwa [Nat.mod_eq_of_lt hz, Nat.mod_eq_of_lt hy] at this
  · right
    have e' : ((z : Nat) : ZMod Curve.p) = ((Curve.p - y : Nat) : ZMod Curve.p) := by
      rw [e, Nat.cast_sub hy.le, ZMod.natCast_self, zero_sub]
    have := (ZMod.natCast_eq_natCast_iff' z (Curve.p - y) Curve.p).1 e'
    rwa [Nat.mod_eq_of_lt hz] at this

/-- The candidate is a root whenever there is one (R125: p ≡ 3 mod 4). -/
theorem rootCandidate_root {r y : Nat} (h : y * y % Curve.p = r) :
    rootCandidate r * rootCandidate r % Curve.p = r := by
  have := Fact.mk CurvePrime.prime_p
  have hr : (r : ZMod Curve.p) = (y : ZMod Curve.p) * y := by
    have : ((r : Nat) : ZMod Curve.p) = ((y * y : Nat) : ZMod Curve.p) := by
      rw [← h, ZMod.natCast_mod]
    exact_mod_cast this
  have hc : ((rootCandidate r : Nat) : ZMod Curve.p) = (r : ZMod Curve.p) ^ ((Curve.p + 1) / 4) := by
    rw [rootCandidate_eq, ZMod.natCast_mod, Nat.cast_pow]
  have : (((rootCandidate r * rootCandidate r : Nat)) : ZMod Curve.p) = ((r : Nat) : ZMod Curve.p) := by
    rw [Nat.cast_mul, hc, hr, ← pow_add, ← pow_two, ← pow_mul,
      show 2 * ((Curve.p + 1) / 4 + (Curve.p + 1) / 4) = Curve.p + 1 by decide, pow_succ, ZMod.pow_card, pow_two]
  have := (ZMod.natCast_eq_natCast_iff' _ _ _).1 this
  rw [this, Nat.mod_eq_of_lt]
  rw [← h]
  exact Nat.mod_lt _ (by decide)

/-- `squareRoots` finds exactly the roots in [0, p) (R125). -/
theorem mem_squareRoots {r y : Nat} : y ∈ squareRoots r ↔ y < Curve.p ∧ y * y % Curve.p = r := by
  have hp0 : 0 < Curve.p := by decide
  unfold squareRoots
  dsimp only
  constructor
  · intro h
    split at h
    · next hc =>
      simp only [List.mem_cons, List.not_mem_nil, or_false] at h
      rcases h with h | h <;> rw [h]
      · exact ⟨rootCandidate_lt r, hc⟩
      · exact ⟨Nat.mod_lt _ hp0, (Nat.mul_mod _ _ _).symm.trans (neg_root (rootCandidate_lt r) hc)⟩
    · simp at h
  · rintro ⟨hy, h⟩
    have hc := rootCandidate_root h
    rw [if_pos hc]
    simpa using root_unique (rootCandidate_lt r) hy hc h

/-! ## The curve equation and decompression -/

theorem rhs_lt (x : Nat) : rhs x < Curve.p := Nat.mod_lt _ (by decide)

/-- ONCURVE over the naturals (R123). -/
theorem onCurve_iff {x y : Nat} : onCurve x y = true ↔ x < Curve.p ∧ y < Curve.p ∧ y * y % Curve.p = rhs x := by
  have key : ((y : Int) ^ 2 - (rhs x : Int)) % (Curve.p : Int) = 0 ↔ y * y % Curve.p = rhs x := by
    rw [← Int.emod_eq_emod_iff_emod_sub_eq_zero, pow_two, Int.emod_eq_of_lt (a := (rhs x : Int)) (by omega)
      (by exact_mod_cast rhs_lt x)]
    exact_mod_cast Iff.rfl
  simp only [onCurve, Bool.and_eq_true, decide_eq_true_eq, beq_iff_eq, key, and_assoc]

/-- What `selectRoot` answers. -/
theorem selectRoot_cases (roots : List Nat) (t : Nat) :
    (roots = [] ∧ selectRoot roots t = .error .notOnCurve)
    ∨ (roots ≠ [] ∧ (∀ y ∈ roots, y % 2 ≠ t) ∧ selectRoot roots t = .error .invalidEncoding)
    ∨ ∃ y ∈ roots, y % 2 = t ∧ selectRoot roots t = .ok y := by
  cases roots with
  | nil => exact .inl ⟨rfl, rfl⟩
  | cons y0 rest =>
    right
    cases h : (y0 :: rest).find? (fun y => y % 2 = t) with
    | none => exact .inl ⟨by simp, by simpa using h, by rw [selectRoot, h]⟩
    | some y =>
      refine .inr ⟨y, List.mem_of_find?_eq_some h, ?_, by rw [selectRoot, h]⟩
      simpa using List.find?_some h

/-- What decompression answers, root by root (R125). -/
theorem decompress_cases (x t : Nat) :
    ((∀ y, ¬ IsRoot x y) ∧ decompress x t = .error .notOnCurve)
    ∨ ((∃ y, IsRoot x y) ∧ (∀ y, IsRoot x y → y % 2 ≠ t) ∧ decompress x t = .error .invalidEncoding)
    ∨ ∃ y, IsRoot x y ∧ y % 2 = t ∧ decompress x t = .ok y := by
  have hm : ∀ y, y ∈ squareRoots (rhs x) ↔ IsRoot x y := fun y => mem_squareRoots
  rcases selectRoot_cases (squareRoots (rhs x)) t with ⟨h, e⟩ | ⟨h, h', e⟩ | ⟨y, hy, hp, e⟩
  · exact .inl ⟨fun y hy => by simpa [h] using (hm y).2 hy, e⟩
  · obtain ⟨y, hy⟩ := List.exists_mem_of_ne_nil _ h
    exact .inr (.inl ⟨⟨y, (hm y).1 hy⟩, fun y hy => h' y ((hm y).2 hy), e⟩)
  · exact .inr (.inr ⟨y, (hm y).1 hy, hp, e⟩)

/-! ## The cubic of the curve -/

namespace Cubic

/-- A polynomial c0 + c1·X + c2·X² modulo the cubic X³ + aX + b, coefficients modulo p. -/
abbrev Poly := Nat × Nat × Nat

/-- The product modulo the cubic: X³ = −aX − b = 3X − b and X⁴ = 3X² − bX. -/
def mul (s t : Poly) : Poly :=
  let nb := Curve.p - Curve.b
  let c3 := s.2.1 * t.2.2 + s.2.2 * t.2.1
  let c4 := s.2.2 * t.2.2
  ((s.1 * t.1 + nb * c3) % Curve.p, (s.1 * t.2.1 + s.2.1 * t.1 + 3 * c3 + nb * c4) % Curve.p,
    (s.1 * t.2.2 + s.2.1 * t.2.1 + s.2.2 * t.1 + 3 * c4) % Curve.p)

/-- s^e for an exponent below 2^fuel, times an accumulator. -/
def powLoop : Nat → Poly → Nat → Poly → Poly
  | 0, _, _, acc => acc
  | fuel + 1, s, e, acc => powLoop fuel (mul s s) (e / 2) (if e % 2 = 1 then mul acc s else acc)

/-- The value of a polynomial at a point of the field. -/
def eval (x : ZMod Curve.p) (s : Poly) : ZMod Curve.p := s.1 + s.2.1 * x + s.2.2 * x ^ 2

/-- At a root of the cubic the value of a product is the product of the values. -/
theorem eval_mul {x : ZMod Curve.p} (hx : x ^ 3 + (Curve.a : ZMod Curve.p) * x + (Curve.b : ZMod Curve.p) = 0)
    (s t : Poly) : eval x (mul s t) = eval x s * eval x t := by
  have ha : (Curve.a : ZMod Curve.p) = -3 := by
    have : ((Curve.a + 3 : Nat) : ZMod Curve.p) = 0 := by
      rw [show Curve.a + 3 = Curve.p by decide, ZMod.natCast_self]
    push_cast at this
    linear_combination this
  have hb : ((Curve.p - Curve.b : Nat) : ZMod Curve.p) = -Curve.b := by
    rw [Nat.cast_sub (by decide), ZMod.natCast_self, zero_sub]
  simp only [eval, mul, ZMod.natCast_mod, Nat.cast_add, Nat.cast_mul, hb, Nat.cast_ofNat]
  rw [ha] at hx
  linear_combination (-(s.2.1 * t.2.2 + s.2.2 * t.2.1 : ZMod Curve.p) - (s.2.2 * t.2.2 : ZMod Curve.p) * x) * hx

theorem eval_powLoop {x : ZMod Curve.p} (hx : x ^ 3 + (Curve.a : ZMod Curve.p) * x + (Curve.b : ZMod Curve.p) = 0)
    (fuel : Nat) (s : Poly) (e : Nat) (acc : Poly) (he : e < 2 ^ fuel) :
    eval x (powLoop fuel s e acc) = eval x acc * eval x s ^ e := by
  induction fuel generalizing s e acc with
  | zero => simp at he; simp [powLoop, he]
  | succ fuel ih =>
    rw [powLoop, ih _ _ _ (by omega), eval_mul hx, ← sq, ← pow_mul]
    rcases Nat.mod_two_eq_zero_or_one e with h | h
    · rw [if_neg (by omega), show 2 * (e / 2) = e by omega]
    · rw [if_pos h, eval_mul hx, mul_assoc, ← pow_succ', show 2 * (e / 2) + 1 = e by omega]

/-- X^p modulo the cubic. -/
def frob : Poly := powLoop 256 (0, 1, 0) Curve.p (1, 0, 0)

/-- An inverse of X^p − X modulo the cubic. -/
def inv : Poly :=
  (0xeb9539fb12a69fa8a00429afc717f1319f0c8d5b6b742939772c4ea8ae886749,
   0xbbea3c6e4f9890bc31aef1ce9abbeaf4847d5c84bfa4437849cb29256264e8b1,
   0x4eacc0d01f9e2a10d4f0056c0628ef26e06a3759ce9c5557561509c6fc21376f)

theorem inv_mul : mul inv (frob.1, frob.2.1 + (Curve.p - 1), frob.2.2) = (1, 0, 0) := by decide +kernel

/-- The cubic has no root in GF(p): X^p − X is invertible modulo it, and a root would make it zero (R129, K2). -/
theorem no_root (x : ZMod Curve.p) : x ^ 3 + (Curve.a : ZMod Curve.p) * x + (Curve.b : ZMod Curve.p) ≠ 0 := by
  have := Fact.mk CurvePrime.prime_p
  intro hx
  have hf : eval x frob = x := by
    rw [frob, eval_powLoop hx _ _ _ _ (by decide)]
    simp [eval, ZMod.pow_card]
  have hg : eval x (frob.1, frob.2.1 + (Curve.p - 1), frob.2.2) = 0 := by
    have hc : ((Curve.p - 1 : Nat) : ZMod Curve.p) = -1 := by
      rw [Nat.cast_sub (by decide), ZMod.natCast_self]; simp
    simp only [eval, Nat.cast_add, hc] at hf ⊢
    linear_combination hf
  have h1 := eval_mul hx inv (frob.1, frob.2.1 + (Curve.p - 1), frob.2.2)
  rw [inv_mul, hg, mul_zero] at h1
  simp [eval] at h1

end Cubic

end Sys2Proof.Machine
end

