-- ==== Sys2Proof/Laws/State.lean ====
section
/-! SUPPORT. One lemma per field of State for each of the shared updates, so that no proof unfolds a record update. -/

namespace Sys2Proof.Machine

@[simp] theorem succeed_v (u : State) : (succeed u).v = u.v := rfl
@[simp] theorem succeed_digest (u : State) : (succeed u).digest = u.digest := rfl
@[simp] theorem succeed_blk (u : State) : (succeed u).blk = u.blk := rfl
@[simp] theorem succeed_din (u : State) : (succeed u).din = u.din := rfl
@[simp] theorem succeed_len (u : State) : (succeed u).len = u.len := rfl
@[simp] theorem succeed_buf (u : State) : (succeed u).buf = u.buf := rfl
@[simp] theorem succeed_px (u : State) : (succeed u).px = u.px := rfl
@[simp] theorem succeed_py (u : State) : (succeed u).py = u.py := rfl
@[simp] theorem succeed_pk (u : State) : (succeed u).pk = u.pk := rfl
@[simp] theorem succeed_pklen (u : State) : (succeed u).pklen = u.pklen := rfl
@[simp] theorem succeed_pending (u : State) : (succeed u).pending = none := rfl
@[simp] theorem succeed_err (u : State) : (succeed u).err = false := rfl
@[simp] theorem succeed_errcode (u : State) : (succeed u).errcode = 0 := rfl
@[simp] theorem succeed_berr (u : State) : (succeed u).berr = u.berr := rfl
@[simp] theorem succeed_wait (u : State) : (succeed u).wait = u.wait := rfl
@[simp] theorem succeed_draws (u : State) : (succeed u).draws = u.draws := rfl
@[simp] theorem succeed_powerLost (u : State) : (succeed u).powerLost = u.powerLost := rfl
@[simp] theorem succeed_env (u : State) : (succeed u).env = u.env := rfl
@[simp] theorem succeed_inst (u : State) : (succeed u).inst = u.inst := rfl
@[simp] theorem succeed_host (u : State) : (succeed u).host = u.host := rfl

@[simp] theorem raise_v (e : ErrorKind) (s : State) : (raise e s).v = s.v := rfl
@[simp] theorem raise_digest (e : ErrorKind) (s : State) : (raise e s).digest = s.digest := rfl
@[simp] theorem raise_blk (e : ErrorKind) (s : State) : (raise e s).blk = s.blk := rfl
@[simp] theorem raise_din (e : ErrorKind) (s : State) : (raise e s).din = s.din := rfl
@[simp] theorem raise_len (e : ErrorKind) (s : State) : (raise e s).len = s.len := rfl
@[simp] theorem raise_buf (e : ErrorKind) (s : State) : (raise e s).buf = s.buf := rfl
@[simp] theorem raise_px (e : ErrorKind) (s : State) : (raise e s).px = s.px := rfl
@[simp] theorem raise_py (e : ErrorKind) (s : State) : (raise e s).py = s.py := rfl
@[simp] theorem raise_pk (e : ErrorKind) (s : State) : (raise e s).pk = s.pk := rfl
@[simp] theorem raise_pklen (e : ErrorKind) (s : State) : (raise e s).pklen = s.pklen := rfl
@[simp] theorem raise_pending (e : ErrorKind) (s : State) : (raise e s).pending = none := rfl
@[simp] theorem raise_err (e : ErrorKind) (s : State) : (raise e s).err = true := rfl
@[simp] theorem raise_errcode (e : ErrorKind) (s : State) : (raise e s).errcode = e.code := rfl
@[simp] theorem raise_berr (e : ErrorKind) (s : State) : (raise e s).berr = s.berr := rfl
@[simp] theorem raise_wait (e : ErrorKind) (s : State) : (raise e s).wait = s.wait := rfl
@[simp] theorem raise_draws (e : ErrorKind) (s : State) : (raise e s).draws = s.draws := rfl
@[simp] theorem raise_powerLost (e : ErrorKind) (s : State) : (raise e s).powerLost = s.powerLost := rfl
@[simp] theorem raise_env (e : ErrorKind) (s : State) : (raise e s).env = s.env := rfl
@[simp] theorem raise_inst (e : ErrorKind) (s : State) : (raise e s).inst = s.inst := rfl
@[simp] theorem raise_host (e : ErrorKind) (s : State) : (raise e s).host = s.host := rfl

@[simp] theorem accept_v (c : Word) (s : State) : (accept c s).v = s.v := rfl
@[simp] theorem accept_digest (c : Word) (s : State) : (accept c s).digest = s.digest := rfl
@[simp] theorem accept_blk (c : Word) (s : State) : (accept c s).blk = s.blk := rfl
@[simp] theorem accept_din (c : Word) (s : State) : (accept c s).din = s.din := rfl
@[simp] theorem accept_len (c : Word) (s : State) : (accept c s).len = s.len := rfl
@[simp] theorem accept_buf (c : Word) (s : State) : (accept c s).buf = s.buf := rfl
@[simp] theorem accept_px (c : Word) (s : State) : (accept c s).px = s.px := rfl
@[simp] theorem accept_py (c : Word) (s : State) : (accept c s).py = s.py := rfl
@[simp] theorem accept_pk (c : Word) (s : State) : (accept c s).pk = s.pk := rfl
@[simp] theorem accept_pklen (c : Word) (s : State) : (accept c s).pklen = s.pklen := rfl
@[simp] theorem accept_pending (c : Word) (s : State) : (accept c s).pending = some c := rfl
@[simp] theorem accept_err (c : Word) (s : State) : (accept c s).err = s.err := rfl
@[simp] theorem accept_errcode (c : Word) (s : State) : (accept c s).errcode = s.errcode := rfl
@[simp] theorem accept_berr (c : Word) (s : State) : (accept c s).berr = false := rfl
@[simp] theorem accept_wait (c : Word) (s : State) : (accept c s).wait = Config.latency s.inst s.draws := rfl
@[simp] theorem accept_draws (c : Word) (s : State) : (accept c s).draws = s.draws + 1 := rfl
@[simp] theorem accept_powerLost (c : Word) (s : State) : (accept c s).powerLost = s.powerLost := rfl
@[simp] theorem accept_env (c : Word) (s : State) : (accept c s).env = s.env := rfl
@[simp] theorem accept_inst (c : Word) (s : State) : (accept c s).inst = s.inst := rfl
@[simp] theorem accept_host (c : Word) (s : State) : (accept c s).host = s.host := rfl

@[simp] theorem popEvent_v (s : State) : (s.popEvent).v = s.v := rfl
@[simp] theorem popEvent_digest (s : State) : (s.popEvent).digest = s.digest := rfl
@[simp] theorem popEvent_blk (s : State) : (s.popEvent).blk = s.blk := rfl
@[simp] theorem popEvent_din (s : State) : (s.popEvent).din = s.din := rfl
@[simp] theorem popEvent_len (s : State) : (s.popEvent).len = s.len := rfl
@[simp] theorem popEvent_buf (s : State) : (s.popEvent).buf = s.buf := rfl
@[simp] theorem popEvent_px (s : State) : (s.popEvent).px = s.px := rfl
@[simp] theorem popEvent_py (s : State) : (s.popEvent).py = s.py := rfl
@[simp] theorem popEvent_pk (s : State) : (s.popEvent).pk = s.pk := rfl
@[simp] theorem popEvent_pklen (s : State) : (s.popEvent).pklen = s.pklen := rfl
@[simp] theorem popEvent_pending (s : State) : (s.popEvent).pending = s.pending := rfl
@[simp] theorem popEvent_err (s : State) : (s.popEvent).err = s.err := rfl
@[simp] theorem popEvent_errcode (s : State) : (s.popEvent).errcode = s.errcode := rfl
@[simp] theorem popEvent_berr (s : State) : (s.popEvent).berr = s.berr := rfl
@[simp] theorem popEvent_wait (s : State) : (s.popEvent).wait = s.wait := rfl
@[simp] theorem popEvent_draws (s : State) : (s.popEvent).draws = s.draws := rfl
@[simp] theorem popEvent_powerLost (s : State) : (s.popEvent).powerLost = s.powerLost := rfl
@[simp] theorem popEvent_env (s : State) : (s.popEvent).env = s.env.tail := rfl
@[simp] theorem popEvent_inst (s : State) : (s.popEvent).inst = s.inst := rfl
@[simp] theorem popEvent_host (s : State) : (s.popEvent).host = s.host := rfl

@[simp] theorem placePending_v (c : Word) (s : State) : (placePending c s).v = s.v := rfl
@[simp] theorem placePending_digest (c : Word) (s : State) : (placePending c s).digest = s.digest := rfl
@[simp] theorem placePending_blk (c : Word) (s : State) : (placePending c s).blk = s.blk := rfl
@[simp] theorem placePending_din (c : Word) (s : State) : (placePending c s).din = s.din := rfl
@[simp] theorem placePending_len (c : Word) (s : State) : (placePending c s).len = s.len := rfl
@[simp] theorem placePending_buf (c : Word) (s : State) : (placePending c s).buf = s.buf := rfl
@[simp] theorem placePending_px (c : Word) (s : State) : (placePending c s).px = s.px := rfl
@[simp] theorem placePending_py (c : Word) (s : State) : (placePending c s).py = s.py := rfl
@[simp] theorem placePending_pk (c : Word) (s : State) : (placePending c s).pk = s.pk := rfl
@[simp] theorem placePending_pklen (c : Word) (s : State) : (placePending c s).pklen = s.pklen := rfl
@[simp] theorem placePending_pending (c : Word) (s : State) : (placePending c s).pending = some c := rfl
@[simp] theorem placePending_err (c : Word) (s : State) : (placePending c s).err = s.err := rfl
@[simp] theorem placePending_errcode (c : Word) (s : State) : (placePending c s).errcode = s.errcode := rfl
@[simp] theorem placePending_berr (c : Word) (s : State) : (placePending c s).berr = s.berr := rfl
@[simp] theorem placePending_wait (c : Word) (s : State) : (placePending c s).wait = 0 := rfl
@[simp] theorem placePending_draws (c : Word) (s : State) : (placePending c s).draws = s.draws := rfl
@[simp] theorem placePending_powerLost (c : Word) (s : State) : (placePending c s).powerLost = false := rfl
@[simp] theorem placePending_env (c : Word) (s : State) : (placePending c s).env = [] := rfl
@[simp] theorem placePending_inst (c : Word) (s : State) : (placePending c s).inst = s.inst := rfl
@[simp] theorem placePending_host (c : Word) (s : State) : (placePending c s).host = s.host := rfl

@[simp] theorem resetEngine_v (s : State) : (resetEngine s).v = State.reset.v := rfl
@[simp] theorem resetEngine_digest (s : State) : (resetEngine s).digest = State.reset.digest := rfl
@[simp] theorem resetEngine_blk (s : State) : (resetEngine s).blk = State.reset.blk := rfl
@[simp] theorem resetEngine_din (s : State) : (resetEngine s).din = State.reset.din := rfl
@[simp] theorem resetEngine_len (s : State) : (resetEngine s).len = State.reset.len := rfl
@[simp] theorem resetEngine_buf (s : State) : (resetEngine s).buf = State.reset.buf := rfl
@[simp] theorem resetEngine_px (s : State) : (resetEngine s).px = State.reset.px := rfl
@[simp] theorem resetEngine_py (s : State) : (resetEngine s).py = State.reset.py := rfl
@[simp] theorem resetEngine_pk (s : State) : (resetEngine s).pk = State.reset.pk := rfl
@[simp] theorem resetEngine_pklen (s : State) : (resetEngine s).pklen = State.reset.pklen := rfl
@[simp] theorem resetEngine_pending (s : State) : (resetEngine s).pending = State.reset.pending := rfl
@[simp] theorem resetEngine_err (s : State) : (resetEngine s).err = State.reset.err := rfl
@[simp] theorem resetEngine_errcode (s : State) : (resetEngine s).errcode = State.reset.errcode := rfl
@[simp] theorem resetEngine_berr (s : State) : (resetEngine s).berr = State.reset.berr := rfl
@[simp] theorem resetEngine_wait (s : State) : (resetEngine s).wait = State.reset.wait := rfl
@[simp] theorem resetEngine_draws (s : State) : (resetEngine s).draws = s.draws := rfl
@[simp] theorem resetEngine_powerLost (s : State) : (resetEngine s).powerLost = State.reset.powerLost := rfl
@[simp] theorem resetEngine_env (s : State) : (resetEngine s).env = s.env := rfl
@[simp] theorem resetEngine_inst (s : State) : (resetEngine s).inst = s.inst := rfl
@[simp] theorem resetEngine_host (s : State) : (resetEngine s).host = s.host := rfl

end Sys2Proof.Machine
end

