-- ==== Sys2Proof/Laws/Ops.lean ====
section
/-! SUPPORT. What each shared operation can do, said once: the end of a command, reads and writes of the window, the
turn of the host, the step. -/

namespace Sys2Proof.Machine

/-! ## The end of a command -/

@[simp] theorem finish_ok (s u : State) : finish s (.ok u) = succeed u := rfl
@[simp] theorem finish_error (s : State) (e : ErrorKind) : finish s (.error e) = raise e s := rfl

@[simp] theorem finish_pending (s : State) (r : Except ErrorKind State) : (finish s r).pending = none := by
  cases r <;> rfl

theorem code_ne_zero (e : ErrorKind) : e.code ≠ 0 := by cases e <;> decide

/-- What the command with a given syntax performs: the `performed` of its completion (42_control.md R150). -/
def perform (i : Instr) (s : State) : Except ErrorKind State :=
  match i with
  | .nop => .ok s
  | .sm3Init => performSm3Init s
  | .sm3Write nb => performSm3Write nb s
  | .sm3Sum => performSm3Sum s
  | .sm3Compress => performSm3Compress s
  | .ptDecode => performPtDecode s
  | .ptEncode mode => performPtEncode mode s

/-- Every command completes: `exec` always answers a next state. -/
theorem exec_eq (i : Instr) (s : State) : exec i s = .next (finish s (perform i s)) := by cases i <;> rfl

theorem complete_ok {c : Word} {i : Instr} (h : decode c = .ok i) (s : State) : complete c s = exec i s := by
  rw [complete, h]

theorem complete_error {c : Word} {r : IllegalReason} (h : decode c = .error r) (s : State) :
    complete c s = .next (raise .illegalCommand s) := by
  rw [complete, h]; rfl

/-- Completing a word is completing what it performs, or raising ILLEGAL_COMMAND. -/
theorem complete_cases (c : Word) (s : State) :
    (∃ i, decode c = .ok i ∧ complete c s = .next (finish s (perform i s))) ∨
    (∃ r, decode c = .error r ∧ complete c s = .next (raise .illegalCommand s)) := by
  cases h : decode c with
  | ok i => exact .inl ⟨i, rfl, by rw [complete_ok h, exec_eq]⟩
  | error r => exact .inr ⟨r, rfl, complete_error h s⟩

/-! ## The register window -/

theorem memRead_idle {s : State} (h : s.busy = false) (r : Reg) : memRead r s = (readReg r s, s) := by
  unfold memRead; rw [if_neg (by simp [h])]

/-- A read moves nothing but the counter of free values (R52). -/
theorem memRead_state (r : Reg) (s : State) : (memRead r s).2 = s ∨ (memRead r s).2 = { s with draws := s.draws + 1 } := by
  unfold memRead
  split
  · cases r <;> simp
  · exact .inl rfl

theorem memWrite_busy {s : State} (h : s.busy = true) (r : Reg) (w : Word) : memWrite r w s = { s with berr := true } := by
  rw [memWrite, h]; rfl

theorem memWrite_idle {s : State} (h : s.busy = false) (r : Reg) (w : Word) : memWrite r w s = writeReg r w s := by
  rw [memWrite, h]; rfl

theorem busy_iff (s : State) : s.busy = true ↔ ∃ c, s.pending = some c := by
  rw [State.busy, Option.isSome_iff_exists]

theorem not_busy_iff (s : State) : s.busy = false ↔ s.pending = none := by
  rw [State.busy]; cases s.pending <;> simp

/-- The register map gives every register back at its offset (R51). -/
theorem regAt_regOffset (r : Reg) : regAt (regOffset r) = r := by
  cases r with
  | id | cmd | status | din | lenLo | lenHi | pklen | reserved => decide
  | v i | digest i | px i | py i => fin_cases i <;> decide
  | blk i => fin_cases i <;> decide
  | pk i => fin_cases i <;> decide

/-- The windows of two instances stand in the order of their numbers. -/
theorem engineBaseIndex_lt {i j : Nat} (h : i < j) : Config.engineBaseIndex i < Config.engineBaseIndex j := by
  induction j with
  | zero => omega
  | succ j ih =>
    rw [Config.engineBaseIndex]
    rcases Nat.lt_succ_iff_lt_or_eq.1 h with h | rfl
    · have := ih h; omega
    · omega

/-! ## The host's turn and the step -/

/-- The line of a label is the first that has it. -/
theorem findLabel_eq_some {h : HostAgent} {l k : Nat} {line : HostLine} (hk : h.prog[k]? = some line)
    (hl : l ∈ line.labels) (hj : ∀ j < k, ∀ line, h.prog[j]? = some line → l ∉ line.labels) :
    h.findLabel l = some k := by
  obtain ⟨hlt, rfl⟩ := List.getElem?_eq_some_iff.1 hk
  rw [HostAgent.findLabel, List.findIdx?_eq_some_iff_getElem]
  refine ⟨hlt, by simpa using hl, fun j hjk => ?_⟩
  simpa using hj j hjk _ (List.getElem?_eq_getElem (by omega))

theorem findLabel_eq_none {h : HostAgent} {l : Nat} (hn : ∀ line ∈ h.prog, l ∉ line.labels) : h.findLabel l = none := by
  rw [HostAgent.findLabel, List.findIdx?_eq_none_iff]
  simpa using hn

/-- An access at a window offset. -/
theorem access_reg {off : Nat} (h : off < 0x400) (ha : off % 4 = 0) : access off 4 = .reg (regAt off) := by
  unfold access Config.windowBytes
  rw [if_neg (by omega), if_pos ⟨rfl, ha⟩]

theorem access_outside {off : Nat} (bytes : Nat) (h : 0x400 ≤ off) : access off bytes = .outside := by
  unfold access Config.windowBytes
  rw [if_pos h]

/-- An access is one to a register, or it stops (R50, R54). -/
theorem hostStore_next {a : Access} {w : Word} {s t : State} (h : hostStore a w s = .next t) :
    ∃ r, a = .reg r ∧ t = { memWrite r w s with host := s.host.advance } := by
  cases a with
  | reg r => exact ⟨r, rfl, by simpa [hostStore] using h.symm⟩
  | outside => simp [hostStore] at h
  | unsupported => simp [hostStore] at h

theorem hostLoad_next {x : Fin 8} {a : Access} {s t : State} (h : hostLoad x a s = .next t) :
    ∃ r, a = .reg r ∧ t = { (memRead r s).2 with host := (s.host.setVar x (memRead r s).1).advance } := by
  cases a with
  | reg r => exact ⟨r, rfl, by simpa [hostLoad] using h.symm⟩
  | outside => simp [hostLoad] at h
  | unsupported => simp [hostLoad] at h

theorem hostJump_next {l : Nat} {s t : State} (h : hostJump l s = .next t) :
    t = { s with host := t.host } := by
  unfold hostJump at h
  split at h
  · simp at h; rw [← h]
  · simp at h

/-- What an operation of the host does to the engine: it writes a register over the bus, or it leaves everything but
the counter of free values. -/
theorem hostExec_next {op : HostOp} {s t : State} (h : hostExec op s = .next t) :
    (isBusWrite op = true ∧ ∃ r w, t = { memWrite r w s with host := t.host }) ∨
    (isBusWrite op = false ∧ ∃ d, t = { s with draws := d, host := t.host }) := by
  have load : ∀ x a, hostLoad x a s = .next t → ∃ d, t = { s with draws := d, host := t.host } := by
    intro x a h
    obtain ⟨r, -, rfl⟩ := hostLoad_next h
    rcases memRead_state r s with e | e
    · exact ⟨s.draws, by simp [e]⟩
    · exact ⟨s.draws + 1, by simp [e]⟩
  have store : ∀ a w, hostStore a w s = .next t → ∃ r w, t = { memWrite r w s with host := t.host } := by
    intro a w h
    obtain ⟨r, -, rfl⟩ := hostStore_next h
    exact ⟨r, w, rfl⟩
  have loc : t = { s with host := t.host } → ∃ d, t = { s with draws := d, host := t.host } := fun e => ⟨s.draws, e⟩
  cases op with
  | st off val => exact .inl ⟨rfl, store _ _ h⟩
  | busWrite addr bytes val => exact .inl ⟨rfl, store _ _ h⟩
  | ld x off => exact .inr ⟨rfl, load _ _ h⟩
  | busRead x addr bytes => exact .inr ⟨rfl, load _ _ h⟩
  | li x imm => exact .inr ⟨rfl, loc (by simp [hostExec] at h; rw [← h])⟩
  | andi x m imm => exact .inr ⟨rfl, loc (by simp [hostExec] at h; rw [← h])⟩
  | addi x m imm => exact .inr ⟨rfl, loc (by simp [hostExec] at h; rw [← h])⟩
  | halt => exact .inr ⟨rfl, loc (by simp [hostExec] at h; rw [← h])⟩
  | j l => exact .inr ⟨rfl, loc (hostJump_next h)⟩
  | bnez x l =>
    refine .inr ⟨rfl, loc ?_⟩
    simp only [hostExec] at h
    split at h
    · exact hostJump_next h
    · simp at h; rw [← h]
  | beqz x l =>
    refine .inr ⟨rfl, loc ?_⟩
    simp only [hostExec] at h
    split at h
    · exact hostJump_next h
    · simp at h; rw [← h]

/-- The turn of a host that makes no operation changes nothing (log 8). -/
theorem hostTurn_idle {s : State} (h : s.host.nextOp = none) : hostTurn s = .next s := by rw [hostTurn, h]

theorem hostTurn_op {s : State} {op : HostOp} (h : s.host.nextOp = some op) : hostTurn s = hostExec op s := by
  rw [hostTurn, h]

/-- While a command is pending, a turn of the host leaves all of the engine but BERR (R57, R58). -/
theorem hostTurn_busy {s t : State} (hb : s.busy = true) (h : hostTurn s = .next t) :
    t = { s with berr := t.berr, draws := t.draws, host := t.host } := by
  unfold hostTurn at h
  split at h
  · rcases hostExec_next h with ⟨-, r, w, e⟩ | ⟨-, d, e⟩
    · rw [memWrite_busy hb] at e; rw [e]
    · rw [e]
  · simp at h; rw [← h]

/-- An operation of the host that is no access changes nothing but the host. -/
theorem hostExec_local {op : HostOp} {s t : State} (ha : isAccess op = false) (h : hostExec op s = .next t) :
    t = { s with host := t.host } := by
  cases op with
  | st _ _ | ld _ _ | busWrite _ _ _ | busRead _ _ _ => simp [isAccess] at ha
  | li _ _ | andi _ _ _ | addi _ _ _ | halt => simp [hostExec] at h; rw [← h]
  | j l => exact hostJump_next h
  | bnez x l =>
    simp only [hostExec] at h
    split at h
    · exact hostJump_next h
    · simp at h; rw [← h]
  | beqz x l =>
    simp only [hostExec] at h
    split at h
    · exact hostJump_next h
    · simp at h; rw [← h]

/-- A step with the reset input held (R191). -/
theorem resetHeldStep_next {s t : State} (h : resetHeldStep s = .next t) : t = { resetEngine s with host := t.host } := by
  unfold resetHeldStep at h
  split at h
  · split at h
    · simp at h
    · next ha => exact hostExec_local (by simpa using ha) h
  · simp at h; rw [← h]

theorem runStep_due {s : State} {c : Word} (hp : s.pending = some c) (hw : s.wait = 0) (hl : s.powerLost = false) :
    runStep s = complete c s := by
  rw [runStep, hl, hp, hw]; rfl

theorem runStep_waiting {s : State} {c : Word} {k : Nat} (hp : s.pending = some c) (hw : s.wait = k + 1)
    (hl : s.powerLost = false) : runStep s = hostTurn { s with wait := k } := by
  rw [runStep, hl, hp, hw]; rfl

theorem runStep_idle {s : State} (hp : s.pending = none) (hl : s.powerLost = false) : runStep s = hostTurn s := by
  rw [runStep, hl, hp]; rfl

theorem nextEvent_quiet {s : State} (h : ∀ e ∈ s.env, e = EnvEvent.quiet) : s.nextEvent = .quiet := by
  unfold State.nextEvent
  cases he : s.env with
  | nil => rfl
  | cons a l => rw [List.headD_cons]; exact h a (by rw [he]; simp)

/-- A reset between two operations of the host is always possible (R191). -/
theorem step_resetBetween {s : State} (h : s.nextEvent = .resetBetween) : step s = .next (resetEngine s.popEvent) := by
  unfold step; rw [h]; rfl

theorem step_powerLoss {s : State} (h : s.nextEvent = .powerLoss) :
    step s = .next { s.popEvent with powerLost := true } := by
  unfold step; rw [h]; rfl

/-- A due command completes in this step. -/
theorem step_due {s : State} {c : Word} (h : s.Due c) : step s = complete c s.popEvent := by
  unfold step
  rw [h.event_eq]
  exact runStep_due (by simpa using h.pending_eq) (by simpa using h.wait_eq) (by simpa using h.powered)

/-- While LATENCY is left, a step is the host's turn. -/
theorem step_waiting {s : State} {c : Word} {k : Nat} (hp : s.pending = some c) (hw : s.wait = k + 1)
    (he : s.nextEvent = .quiet) (hl : s.powerLost = false) : step s = hostTurn { s.popEvent with wait := k } := by
  unfold step
  rw [he]
  exact runStep_waiting (by simpa using hp) (by simpa using hw) (by simpa using hl)

/-- While nothing is pending, a step is the host's turn. -/
theorem step_idle {s : State} (hp : s.pending = none) (he : s.nextEvent = .quiet) (hl : s.powerLost = false) :
    step s = hostTurn s.popEvent := by
  unfold step
  rw [he]
  exact runStep_idle (by simpa using hp) (by simpa using hl)

/-- What a step can do. -/
theorem step_cases {s t : State} (h : step s = .next t) :
    (s.nextEvent.isReset = true ∧ t = { resetEngine s.popEvent with host := t.host }) ∨
    (s.nextEvent = .powerLoss ∧ t = { s.popEvent with powerLost := true }) ∨
    (s.nextEvent = .quiet ∧ s.powerLost = false ∧
      ((∃ c, s.pending = some c ∧ s.wait = 0 ∧ complete c s.popEvent = .next t) ∨
       (∃ c k, s.pending = some c ∧ s.wait = k + 1 ∧ hostTurn { s.popEvent with wait := k } = .next t) ∨
       (s.pending = none ∧ hostTurn s.popEvent = .next t))) := by
  unfold step at h
  cases he : s.nextEvent with
  | resetBetween => rw [he] at h; exact .inl ⟨rfl, by cases h; rfl⟩
  | resetHeld => rw [he] at h; exact .inl ⟨rfl, resetHeldStep_next h⟩
  | powerLoss => rw [he] at h; exact .inr (.inl ⟨rfl, by simpa [eventStep] using h.symm⟩)
  | quiet =>
    rw [he] at h
    refine .inr (.inr ⟨rfl, ?_⟩)
    change runStep s.popEvent = _ at h
    cases hl : s.powerLost with
    | true => simp [runStep, hl] at h
    | false =>
      refine ⟨rfl, ?_⟩
      cases hp : s.pending with
      | none => exact .inr (.inr ⟨rfl, by rwa [runStep_idle (by simpa using hp) (by simpa using hl)] at h⟩)
      | some c =>
        cases hw : s.wait with
        | zero =>
          exact .inl ⟨c, rfl, rfl, by rwa [runStep_due (by simpa using hp) (by simpa using hw) (by simpa using hl)] at h⟩
        | succ k =>
          refine .inr (.inl ⟨c, k, rfl, rfl, ?_⟩)
          rwa [runStep_waiting (by simpa using hp) (by simpa using hw) (by simpa using hl)] at h

/-! ## Several steps -/

@[simp] theorem andThen_next (s : State) (f : State → Host.Outcome State Fault Refusal) : andThen (.next s) f = f s := rfl

theorem andThen_eq_next {o : Host.Outcome State Fault Refusal} {f : State → Host.Outcome State Fault Refusal} {t : State}
    (h : andThen o f = .next t) : ∃ s, o = .next s ∧ f s = .next t := by
  cases o with
  | next s => exact ⟨s, rfl, h⟩
  | fault r => simp [andThen] at h
  | refused r => simp [andThen] at h

theorem run_next (M : Host.Core) (n : Nat) {s t : M.State} (h : M.step s = .next t) : M.run (n + 1) s = M.run n t := by
  rw [Host.Core.run, h]

theorem run_fault (M : Host.Core) (n : Nat) {s : M.State} {r : M.Fault} (h : M.step s = .fault r) :
    M.run (n + 1) s = .fault r := by
  rw [Host.Core.run, h]

theorem run_refused (M : Host.Core) (n : Nat) {s : M.State} {r : M.Refusal} (h : M.step s = .refused r) :
    M.run (n + 1) s = .refused r := by
  rw [Host.Core.run, h]

/-- `steps` is the host's own `run` of the core. -/
theorem steps_eq_run (n : Nat) (s : State) : steps n s = Host.Core.run Sys2Proof.core n s := by
  induction n generalizing s with
  | zero => rfl
  | succ n ih =>
    cases h : step s with
    | next t => exact (show steps (n + 1) s = steps n t by rw [steps, h]; rfl).trans ((ih t).trans (run_next core n h).symm)
    | fault r => exact (show steps (n + 1) s = .fault r by rw [steps, h]; rfl).trans (run_fault core n h).symm
    | refused r => exact (show steps (n + 1) s = .refused r by rw [steps, h]; rfl).trans (run_refused core n h).symm

/-- The last of n + 1 steps taken off. -/
theorem steps_succ_last (n : Nat) (s t : State) : steps (n + 1) s = .next t ↔ ∃ u, steps n s = .next u ∧ step u = .next t := by
  induction n generalizing s with
  | zero =>
    constructor
    · intro h
      obtain ⟨u, h1, h2⟩ := andThen_eq_next h
      exact ⟨s, rfl, by rw [h1]; exact h2⟩
    · rintro ⟨u, h1, h2⟩
      cases h1
      rw [steps, h2]; rfl
  | succ n ih =>
    constructor
    · intro h
      obtain ⟨u, h1, h2⟩ := andThen_eq_next h
      obtain ⟨x, hx, hs⟩ := (ih u).1 h2
      exact ⟨x, by rw [steps, h1]; exact hx, hs⟩
    · rintro ⟨x, hx, hs⟩
      obtain ⟨u, h1, h2⟩ := andThen_eq_next hx
      rw [steps, h1]
      exact (ih u).2 ⟨x, h2, hs⟩

end Sys2Proof.Machine
end

