-- ==== Sys2Proof/Laws/Sm3.lean ====
section
/-! SUPPORT. SM3: the schedule, the padding, and the loop of SM3_WRITE as what it does to a whole byte string. -/

namespace Sys2Proof.Machine

/-! ## The schedule -/

@[simp] theorem expandTo_length (block : List Word) (k : Nat) : (expandTo block k).length = block.length + k := by
  induction k with
  | zero => rfl
  | succ k ih => simp only [expandTo, List.length_append, ih, List.length_singleton]; omega

/-- The schedule only grows: its earlier words stay. -/
theorem expandTo_getD (block : List Word) (k d i : Nat) (h : i < block.length + k) :
    (expandTo block (k + d)).getD i 0 = (expandTo block k).getD i 0 := by
  induction d with
  | zero => rfl
  | succ d ih =>
    rw [← ih, show k + (d + 1) = (k + d) + 1 by omega, expandTo]
    simp only [List.getD_eq_getElem?_getD]
    rw [List.getElem?_append_left (by simp; omega)]

/-! ## Padding -/

/-- The number of zeros of the padding of a tail of at most 63 bytes (R91). -/
theorem padZeros_eq (n : Nat) (h : n ≤ 63) : padZeros n = if n ≤ 55 then 55 - n else 119 - n := by
  unfold padZeros
  split <;> omega

/-- |PAD| is 64 up to 55 bytes and 128 from 56 to 63 (R91). -/
theorem pad_length (buf : List Byte) (len : Nat) (h : buf.length ≤ 63) :
    (pad buf len).length = if buf.length ≤ 55 then 64 else 128 := by
  simp only [pad, List.length_append, List.length_replicate, natToBytes_length, List.length_singleton,
    padZeros_eq _ h]
  split <;> omega

/-- The blocks SM3_SUM compresses: one or two (R96). -/
theorem cfTail_pad (v : Vector Word 8) (buf : List Byte) (len : Nat) (h : buf.length ≤ 63) :
    cfTail v (pad buf len) =
      if buf.length ≤ 55 then cf v (pad buf len) else cf (cf v ((pad buf len).take 64)) ((pad buf len).drop 64) := by
  have hl := pad_length buf len h
  unfold cfTail
  by_cases hc : buf.length ≤ 55
  · rw [if_pos hc] at hl
    rw [if_neg (by omega), if_pos hc, List.take_of_length_le (by omega)]
  · rw [if_neg hc] at hl
    rw [if_pos hl, if_neg hc, List.take_of_length_le (l := List.drop 64 _) (by simp; omega)]

/-! ## The loop of SM3_WRITE -/

/-- The loop touches BUF and V only. -/
theorem appendByte_frame (s : State) (b : Byte) :
    appendByte s b = { s with v := (appendByte s b).v, buf := (appendByte s b).buf } := by
  unfold appendByte
  dsimp only
  split <;> rfl

theorem foldl_appendByte_frame (bs : List Byte) (s : State) :
    bs.foldl appendByte s =
      { s with v := (bs.foldl appendByte s).v, buf := (bs.foldl appendByte s).buf } := by
  induction bs generalizing s with
  | nil => rfl
  | cons b bs ih => rw [List.foldl_cons, ih, appendByte_frame s b]

/-- The loop reads BUF and V only. -/
theorem appendByte_congr {s t : State} (hv : s.v = t.v) (hb : s.buf = t.buf) (b : Byte) :
    (appendByte s b).v = (appendByte t b).v ∧ (appendByte s b).buf = (appendByte t b).buf := by
  unfold appendByte
  rw [hb, hv]
  dsimp only
  split <;> exact ⟨rfl, rfl⟩

theorem foldl_appendByte_congr (bs : List Byte) {s t : State} (hv : s.v = t.v) (hb : s.buf = t.buf) :
    (bs.foldl appendByte s).v = (bs.foldl appendByte t).v
    ∧ (bs.foldl appendByte s).buf = (bs.foldl appendByte t).buf := by
  induction bs generalizing s t with
  | nil => exact ⟨hv, hb⟩
  | cons b bs ih =>
    have := appendByte_congr hv hb b
    exact ih this.1 this.2

/-- The loop over bytes that leave the buffer short of a block appends them. -/
theorem foldl_appendByte_short (bs : List Byte) (s : State) (h : s.buf.length + bs.length < 64) :
    bs.foldl appendByte s = { s with buf := s.buf ++ bs } := by
  induction bs generalizing s with
  | nil => simp
  | cons b bs ih =>
    have hl : (s.buf ++ [b]).length ≠ 64 := by simp at h ⊢; omega
    have e : appendByte s b = { s with buf := s.buf ++ [b] } := by unfold appendByte; dsimp only; rw [if_neg hl]
    rw [List.foldl_cons, e, ih _ (by simp at h ⊢; omega)]
    simp

/-- The loop over bytes that fill the block exactly compresses it. -/
theorem foldl_appendByte_fill (bs : List Byte) (s : State) (hb : bs ≠ []) (h : s.buf.length + bs.length = 64) :
    bs.foldl appendByte s = { s with v := cf s.v (s.buf ++ bs), buf := [] } := by
  obtain ⟨init, b, rfl⟩ : ∃ init b, bs = init ++ [b] := ⟨bs.dropLast, bs.getLast hb, (List.dropLast_append_getLast hb).symm⟩
  rw [List.foldl_append, foldl_appendByte_short init s (by simp at h ⊢; omega)]
  simp only [List.foldl_cons, List.foldl_nil, appendByte]
  rw [if_pos (by simp at h ⊢; omega)]
  simp

/-- The loop of SM3_WRITE over a byte string that fills at most one block (R95). -/
theorem foldl_appendByte (bs : List Byte) (s : State) (hs : s.buf.length ≤ 63) (hb : bs.length ≤ 64) :
    bs.foldl appendByte s =
      { s with v := if (s.buf ++ bs).length < 64 then s.v else cf s.v ((s.buf ++ bs).take 64)
               buf := if (s.buf ++ bs).length < 64 then s.buf ++ bs else (s.buf ++ bs).drop 64 } := by
  by_cases hc : (s.buf ++ bs).length < 64
  · rw [if_pos hc, if_pos hc, foldl_appendByte_short bs s (by simpa using hc)]
  · simp only [List.length_append, not_lt] at hc
    have hk : bs = bs.take (64 - s.buf.length) ++ bs.drop (64 - s.buf.length) := (List.take_append_drop _ _).symm
    have hne : bs.take (64 - s.buf.length) ≠ [] := by
      intro e
      have := congrArg List.length e
      rw [List.length_take, List.length_nil] at this
      omega
    have h1 : (s.buf ++ bs).take 64 = s.buf ++ bs.take (64 - s.buf.length) := by
      rw [List.take_append, List.take_of_length_le (l := s.buf) (by omega)]
    have h2 : (s.buf ++ bs).drop 64 = bs.drop (64 - s.buf.length) := by
      rw [List.drop_append, List.drop_eq_nil_of_le (by omega), List.nil_append]
    rw [if_neg (by simp; omega), if_neg (by simp; omega), h1, h2]
    conv_lhs => rw [hk, List.foldl_append]
    rw [foldl_appendByte_fill _ s hne (by simp; omega), foldl_appendByte_short _ _ (by simp; omega)]
    simp

/-! ## Blocks of a message -/

theorem blockAt_append (m x : List Byte) (i : Nat) (h : 64 * (i + 1) ≤ m.length) : blockAt (m ++ x) i = blockAt m i := by
  unfold blockAt
  rw [List.drop_append, List.take_append, show 64 - (List.drop (64 * i) m).length = 0 by simp; omega]
  simp

/-- Complete blocks do not depend on what follows them. -/
theorem cfBlocks_append (v : Vector Word 8) (m x : List Byte) (k : Nat) (h : 64 * k ≤ m.length) :
    cfBlocks v (m ++ x) k = cfBlocks v m k := by
  induction k with
  | zero => rfl
  | succ k ih => rw [cfBlocks, cfBlocks, ih (by omega), blockAt_append m x k (by omega)]

/-- The stream of a message grows by one turn of the loop: BUF and V follow (10_state.md R43). -/
theorem appendByte_stream (m : List Byte) (s : State) (b : Byte) (hb : s.buf = m.drop (64 * (m.length / 64)))
    (hv : s.v = cfBlocks iv m (m.length / 64)) :
    (appendByte s b).buf = (m ++ [b]).drop (64 * ((m ++ [b]).length / 64))
    ∧ (appendByte s b).v = cfBlocks iv (m ++ [b]) ((m ++ [b]).length / 64) := by
  have hlen : s.buf.length = m.length % 64 := by rw [hb]; simp; omega
  have hdrop : (m ++ [b]).drop (64 * (m.length / 64)) = s.buf ++ [b] := by
    rw [List.drop_append, hb, show 64 * (m.length / 64) - m.length = 0 by omega]
    rfl
  unfold appendByte
  dsimp only
  by_cases hc : (s.buf ++ [b]).length = 64
  · rw [if_pos hc]
    have hc' : m.length % 64 = 63 := by simp [hlen] at hc; omega
    have hq : (m ++ [b]).length / 64 = m.length / 64 + 1 := by simp; omega
    rw [hq]
    constructor
    · rw [List.drop_eq_nil_of_le (by simp; omega)]
    · rw [cfBlocks, cfBlocks_append iv m [b] _ (by omega), ← hv, blockAt, hdrop, List.take_of_length_le (by omega)]
  · rw [if_neg hc]
    have hc' : m.length % 64 ≠ 63 := by simp [hlen] at hc; omega
    have hq : (m ++ [b]).length / 64 = m.length / 64 := by simp; omega
    rw [hq]
    exact ⟨hdrop.symm, by rw [cfBlocks_append iv m [b] _ (by omega)]; exact hv⟩

theorem foldl_appendByte_stream (bs m : List Byte) (s : State) (hb : s.buf = m.drop (64 * (m.length / 64)))
    (hv : s.v = cfBlocks iv m (m.length / 64)) :
    (bs.foldl appendByte s).buf = (m ++ bs).drop (64 * ((m ++ bs).length / 64))
    ∧ (bs.foldl appendByte s).v = cfBlocks iv (m ++ bs) ((m ++ bs).length / 64) := by
  induction bs generalizing m s with
  | nil => simpa using ⟨hb, hv⟩
  | cons b bs ih =>
    have h1 := appendByte_stream m s b hb hv
    have := ih (m ++ [b]) (appendByte s b) h1.1 h1.2
    simpa using this

end Sys2Proof.Machine
end

