-- ==== Sys2Proof/Laws/Commands.lean ====
section
/-! SUPPORT. What each command performs, said once: one equation per command for `perform` and `exec`, the stream of a
message, and a host that issues a command (spec/40_sm3.md, spec/41_sm2_point.md, spec/42_control.md). -/

namespace Sys2Proof.Machine

/-- The state in which a command ends. -/
theorem exec_next {i : Instr} {s t : State} (h : exec i s = .next t) : t = finish s (perform i s) := by
  rw [exec_eq] at h
  exact (Host.Outcome.next.inj h).symm

/-! ## What each command performs -/

theorem perform_nop (s : State) : perform .nop s = .ok s := rfl

theorem perform_sm3Init (s : State) : perform .sm3Init s = .ok { s with v := iv, buf := [], len := 0 } := rfl

theorem perform_sm3Sum (s : State) :
    perform .sm3Sum s = .ok { s with digest := cfTail s.v (pad s.buf s.len.toNat), v := iv, buf := [], len := 0 } := rfl

theorem perform_sm3Compress (s : State) : perform .sm3Compress s = .ok { s with v := compressWords s.v s.blk } := rfl

theorem perform_ptEncode (mode : EncMode) (s : State) :
    perform (.ptEncode mode) s =
      .ok { s with pk := packWords 17 (encodePoint mode (coordValue s.px) (coordValue s.py))
                   pklen := BitVec.ofNat 7 (encodePoint mode (coordValue s.px) (coordValue s.py)).length } := rfl

/-- SM3_WRITE past MAX_LEN (R95). -/
theorem perform_sm3Write_error {nb : Nat} {s : State} (h : maxLen < s.len.toNat + nb) :
    perform (.sm3Write nb) s = .error .hashState := by
  rw [perform, performSm3Write, if_pos h]

/-- SM3_WRITE within MAX_LEN (R95): V and BUF by the loop, LEN by the count. -/
theorem perform_sm3Write_ok {nb : Nat} {s : State} (h : s.len.toNat + nb ≤ maxLen) :
    perform (.sm3Write nb) s =
      .ok { s with v := ((dinBytes s.din nb).foldl appendByte s).v
                   buf := ((dinBytes s.din nb).foldl appendByte s).buf
                   len := s.len + BitVec.ofNat 64 nb } := by
  rw [perform, performSm3Write, if_neg (by omega), foldl_appendByte_frame]

/-- PT_DECODE of an encoding that is rejected (R126). -/
theorem perform_ptDecode_error {s : State} {e : ErrorKind} (h : decodePoint s.pklen.toNat s.pkb = .error e) :
    perform .ptDecode s = .error e := by
  rw [perform, performPtDecode, h]; rfl

/-- PT_DECODE of an encoding that is accepted (R126). -/
theorem perform_ptDecode_ok {s : State} {x y : Nat} (h : decodePoint s.pklen.toNat s.pkb = .ok (x, y)) :
    perform .ptDecode s = .ok { s with px := coordWords x, py := coordWords y } := by
  rw [perform, performPtDecode, h]; rfl

/-! ## What no command reads -/

/-- No command reads BERR, the model's own fields or the host, and none writes them. -/
theorem perform_with (b : Bool) (w d : Nat) (e : List EnvEvent) (h : HostAgent) (i : Instr) (s : State) :
    perform i { s with berr := b, wait := w, draws := d, env := e, host := h } =
      (perform i s).map fun u => { u with berr := b, wait := w, draws := d, env := e, host := h } := by
  cases i with
  | nop | sm3Init | sm3Sum | sm3Compress | ptEncode _ => rfl
  | ptDecode =>
    simp only [perform, performPtDecode]
    change Except.map _ (decodePoint s.pklen.toNat s.pkb) = _
    cases decodePoint s.pklen.toNat s.pkb <;> rfl
  | sm3Write nb =>
    by_cases hc : s.len.toNat + nb ≤ maxLen
    · have := foldl_appendByte_congr (dinBytes s.din nb)
        (s := { s with berr := b, wait := w, draws := d, env := e, host := h }) (t := s) rfl rfl
      rw [perform_sm3Write_ok hc, perform_sm3Write_ok (by exact hc), this.1, this.2]
      rfl
    · have hc' : maxLen < s.len.toNat + nb := by omega
      rw [perform_sm3Write_error hc', perform_sm3Write_error (by exact hc')]
      rfl

/-- The completion of a word likewise. -/
theorem complete_with (b : Bool) (w d : Nat) (e : List EnvEvent) (h : HostAgent) {c : Word} {s t : State}
    (ht : complete c s = .next t) :
    complete c { s with berr := b, wait := w, draws := d, env := e, host := h } =
      .next { t with berr := b, wait := w, draws := d, env := e, host := h } := by
  rcases complete_cases c s with ⟨i, hd, he⟩ | ⟨r, hd, he⟩
  · rw [complete_ok hd, exec_eq, perform_with]
    rw [he] at ht
    cases Host.Outcome.next.inj ht
    cases perform i s <;> rfl
  · rw [complete_error hd]
    rw [he] at ht
    cases Host.Outcome.next.inj ht
    rfl

/-! ## A host issues a command -/

/-- The end of an issued command, for an idle engine. -/
theorem issue_eq {i : Instr} (hi : decode (encode i) = .ok i) {s : State} (h : s.busy = false) :
    issue i s = .next (finish (accept (encode i) s) (perform i (accept (encode i) s))) := by
  rw [issue, complete_ok hi, exec_eq, memWrite_idle h]; rfl

/-- DIN holds a piece in its first bytes (20_memory.md R60). -/
theorem dinBytes_dinOf (p : List Byte) (fill : Word) (h : p.length ≤ 4) : dinBytes (dinOf p fill) p.length = p := by
  rw [dinBytes, dinOf, wordBytes_be32]
  match p, h with
  | [], _ => rfl
  | [_], _ => rfl
  | [_, _], _ => rfl
  | [_, _, _], _ => rfl
  | [_, _, _, _], _ => rfl

/-! ## The stream of a message -/

theorem streamOf_nil {t : State} (hv : t.v = iv) (hb : t.buf = []) (hl : t.len = 0) : StreamOf [] t :=
  ⟨by rw [hl]; rfl, hb, hv⟩

/-- The stream is in V, BUF and LEN alone. -/
theorem streamOf_congr {m : List Byte} {s t : State} (h : StreamOf m s) (hv : t.v = s.v) (hb : t.buf = s.buf)
    (hl : t.len = s.len) : StreamOf m t :=
  ⟨by rw [hl]; exact h.len_eq, by rw [hb]; exact h.buf_eq, by rw [hv]; exact h.v_eq⟩

/-- What SM3_SUM latches when the state holds the stream of m (R93, R96). -/
theorem cfTail_stream {m : List Byte} {s : State} (h : StreamOf m s) : cfTail s.v (pad s.buf s.len.toNat) = sm3 m := by
  rw [h.len_eq, h.buf_eq, h.v_eq]; rfl

/-! ## The point of an encoding -/

/-- Roots of one parity are equal: p is odd. -/
theorem isRoot_unique {x y z : Nat} (hy : IsRoot x y) (hz : IsRoot x z) (h : y % 2 = z % 2) : y = z := by
  rcases root_unique hy.1 hz.1 hy.2 hz.2 with e | e
  · exact e.symm
  · have := p_odd
    by_cases h0 : y = 0
    · subst h0; simp at e; exact e.symm
    · rw [Nat.mod_eq_of_lt (by omega)] at e
      have := hy.1
      omega

theorem encodePoint_length (mode : EncMode) (x y : Nat) :
    (encodePoint mode x y).length = if mode = .compress then 33 else 65 := by
  cases mode <;> simp [encodePoint]

/-- An encoding is accepted only with a length that fits its prefix, and its point is on the curve's field (R126). -/
theorem decodePoint_ok {l : Nat} {pkb : List Byte} {x y : Nat} (h : decodePoint l pkb = .ok (x, y)) :
    ((l = 33 ∧ (pkb.getD 0 0).toNat ∈ [0x02, 0x03] ∧ decompress x ((pkb.getD 0 0).toNat % 2) = .ok y)
      ∨ (l = 65 ∧ (pkb.getD 0 0).toNat ∈ [0x04, 0x06, 0x07] ∧ y = bytesToNat ((pkb.drop 33).take 32)
        ∧ onCurve x y = true))
    ∧ x = bytesToNat ((pkb.drop 1).take 32) ∧ x < Curve.p := by
  unfold decodePoint at h
  dsimp only at h
  split at h
  · cases h
  split at h
  · cases h
  split at h
  · cases h
  next hp =>
  split at h
  · cases h
  next h33 =>
  split at h
  · cases h
  next h65 =>
  split at h
  · next hc =>
    split at h
    · cases h
    next hx =>
    cases hd : decompress (bytesToNat ((pkb.drop 1).take 32)) ((pkb.getD 0 0).toNat % 2) with
    | error e => rw [hd] at h; cases h
    | ok z =>
      rw [hd] at h
      cases h
      exact ⟨.inl ⟨by by_contra hl; exact h33 ⟨hc, hl⟩, hc, hd⟩, rfl, by omega⟩
  · next hc =>
    have hc' : (pkb.getD 0 0).toNat ∈ [0x04, 0x06, 0x07] := by
      simp only [List.mem_cons, List.not_mem_nil, or_false, not_or] at hp hc ⊢
      omega
    split at h
    · cases h
    split at h
    · cases h
    next hx =>
    split at h
    · next ho =>
      cases h
      exact ⟨.inr ⟨by by_contra hl; exact h65 ⟨hc', hl⟩, hc', rfl, ho⟩, rfl, by omega⟩
    · cases h

end Sys2Proof.Machine
end

