-- ==== Sys2Proof/Laws/Flags.lean ====
section
/-! SUPPORT. Each field of STATUS stands in its place (spec/10_state.md R31). -/

namespace Sys2Proof.Machine

theorem statusFields_toNat (bufcnt : BitVec 6) (errcode : BitVec 4) (berr err busy : Bool) :
    (statusFields bufcnt errcode berr err busy).toNat =
      bufcnt.toNat * 256 + errcode.toNat * 16 + berr.toNat * 4 + err.toNat * 2 + busy.toNat := by
  unfold statusFields
  rw [toNat_append_eq (0#18 ++ bufcnt ++ errcode ++ 0#1 ++ BitVec.ofBool berr ++ BitVec.ofBool err),
    toNat_append_eq (0#18 ++ bufcnt ++ errcode ++ 0#1 ++ BitVec.ofBool berr),
    toNat_append_eq (0#18 ++ bufcnt ++ errcode ++ 0#1), toNat_append_eq (0#18 ++ bufcnt ++ errcode),
    toNat_append_eq (0#18 ++ bufcnt), toNat_append_eq 0#18]
  simp
  omega

/-- A bit of a word from its value. -/
theorem getLsbD_of_toNat {n : Nat} (w : BitVec n) (k : Nat) (b : Bool) (h : w.toNat / 2 ^ k % 2 = b.toNat) :
    w.getLsbD k = b := by
  rw [BitVec.getLsbD, Nat.testBit_eq_decide_div_mod_eq, h]
  cases b <;> rfl

variable (bufcnt : BitVec 6) (errcode : BitVec 4) (berr err busy : Bool)

@[simp] theorem statusFields_busy : (statusFields bufcnt errcode berr err busy).getLsbD 0 = busy := by
  apply getLsbD_of_toNat
  rw [statusFields_toNat]
  have := busy.toNat_lt
  omega

@[simp] theorem statusFields_err : (statusFields bufcnt errcode berr err busy).getLsbD 1 = err := by
  apply getLsbD_of_toNat
  rw [statusFields_toNat]
  have := busy.toNat_lt
  have := err.toNat_lt
  omega

@[simp] theorem statusFields_berr : (statusFields bufcnt errcode berr err busy).getLsbD 2 = berr := by
  apply getLsbD_of_toNat
  rw [statusFields_toNat]
  have := busy.toNat_lt
  have := err.toNat_lt
  have := berr.toNat_lt
  omega

@[simp] theorem statusFields_bit3 : (statusFields bufcnt errcode berr err busy).getLsbD 3 = false := by
  apply getLsbD_of_toNat
  rw [statusFields_toNat]
  have := busy.toNat_lt
  have := err.toNat_lt
  have := berr.toNat_lt
  simp
  omega

@[simp] theorem statusFields_errcode : (statusFields bufcnt errcode berr err busy).extractLsb' 4 4 = errcode := by
  apply BitVec.eq_of_toNat_eq
  rw [extract_toNat, statusFields_toNat]
  have := busy.toNat_lt
  have := err.toNat_lt
  have := berr.toNat_lt
  omega

@[simp] theorem statusFields_bufcnt : (statusFields bufcnt errcode berr err busy).extractLsb' 8 6 = bufcnt := by
  apply BitVec.eq_of_toNat_eq
  rw [extract_toNat, statusFields_toNat]
  have := busy.toNat_lt
  have := err.toNat_lt
  have := berr.toNat_lt
  omega

@[simp] theorem statusFields_reserved : (statusFields bufcnt errcode berr err busy).extractLsb' 14 18 = 0 := by
  apply BitVec.eq_of_toNat_eq
  rw [extract_toNat, statusFields_toNat]
  have := busy.toNat_lt
  have := err.toNat_lt
  have := berr.toNat_lt
  simp
  omega

end Sys2Proof.Machine
end

