-- ==== Sys2Proof/Laws/PerInstr.lean ====
section
/-! SUPPORT. A fact about every command as syntax, one lemma per constructor: its word, under the mask of its row of the
opcode table, is that row's match (spec/opcode_table.json). -/

namespace Sys2Proof.Laws.TableMatch

/-- The mask of a command's row of the opcode table: every bit but the operand field. -/
def mask : Instr → Word
  | .nop => 0xffffffff
  | .sm3Init => 0xffffffff
  | .sm3Write _ => 0xfffffcff
  | .sm3Sum => 0xffffffff
  | .sm3Compress => 0xffffffff
  | .ptDecode => 0xffffffff
  | .ptEncode _ => 0xffffcfff

/-- The match of a command's row of the opcode table. -/
def matchWord : Instr → Word
  | .nop => 0x00000000
  | .sm3Init => 0x00000001
  | .sm3Write _ => 0x00000002
  | .sm3Sum => 0x00000003
  | .sm3Compress => 0x00000004
  | .ptDecode => 0x00000010
  | .ptEncode _ => 0x00000011

/-- The word of a well-formed command matches its row. -/
def Statement (i : Instr) : Prop := i.wellFormed = true → encode i &&& mask i = matchWord i

theorem nop : Statement .nop := fun _ => by decide

theorem sm3Init : Statement .sm3Init := fun _ => by decide

theorem sm3Write (nb : Nat) : Statement (.sm3Write nb) := by
  intro h
  simp only [Instr.wellFormed, Bool.and_eq_true, decide_eq_true_eq] at h
  obtain ⟨h1, h2⟩ := h
  interval_cases nb <;> decide

theorem sm3Sum : Statement .sm3Sum := fun _ => by decide

theorem sm3Compress : Statement .sm3Compress := fun _ => by decide

theorem ptDecode : Statement .ptDecode := fun _ => by decide

theorem ptEncode (mode : EncMode) : Statement (.ptEncode mode) := fun _ => by cases mode <;> decide

end Sys2Proof.Laws.TableMatch
end

