-- ==== Sys2Proof/Tests/Slice0.lean ====
section
/-! SUPPORT. The modeller's own tests: the ill-formed terms the check refuses, words written out from the spec's
encodings, one-step tests with the expected values of spec/95_test_vectors.md (its row names stand in the comments), and
for each obligation with hypotheses a state that meets them. -/

namespace Sys2Proof.Tests

open Sys2Proof.Machine

set_option Elab.async false

/-! ## Helpers -/

/-- The state of a next outcome. -/
def after (o : Host.Outcome State Fault Refusal) : State :=
  match o with
  | .next t => t
  | .fault _ => State.reset
  | .refused _ => State.reset

/-- The outcome is a next state. -/
def isNext (o : Host.Outcome State Fault Refusal) : Bool :=
  match o with
  | .next _ => true
  | .fault _ => false
  | .refused _ => false

theorem next_after {o : Host.Outcome State Fault Refusal} (h : isNext o = true) : o = .next (after o) := by
  cases o with
  | next t => rfl
  | fault r => simp [isNext] at h
  | refused r => simp [isNext] at h

theorem exec_after (i : Instr) (s : State) : exec i s = .next (after (exec i s)) := by rw [exec_eq]; rfl

/-- The state with a host program in it. -/
def withOps (ops : List HostOp) (s : State) : State :=
  { s with host := { s.host with prog := ops.map fun op => { labels := [], op := op } } }

/-- The state with a command word pending for `k` more steps. -/
def busyFor (k : Nat) (c : Word) (s : State) : State := { placePending c s with wait := k }

/-- The stream buffer of n bytes "a". -/
def withTail (n : Nat) (s : State) : State := { s with buf := List.replicate n 0x61, len := BitVec.ofNat 64 n }

/-- Row E1: the compressed encoding of G in PK. -/
def compressedG : Vector Word 17 :=
  #v[0x0232c4ae, 0x2c1f1981, 0x195f9904, 0x466a39c9, 0x948fe30b, 0xbff2660b, 0xe1715a45, 0x89334c74, 0xc7000000,
     0, 0, 0, 0, 0, 0, 0, 0]

/-- Row E2: the uncompressed encoding of G in PK. -/
def uncompressedG : Vector Word 17 :=
  #v[0x0432c4ae, 0x2c1f1981, 0x195f9904, 0x466a39c9, 0x948fe30b, 0xbff2660b, 0xe1715a45, 0x89334c74, 0xc7bc3736,
     0xa2f4f677, 0x9c59bdce, 0xe36b6921, 0x53d0a987, 0x7cc62a47, 0x4002df32, 0xe52139f0, 0xa0000000]

/-- Gx and Gy in words (41_sm2_point.md R120). -/
def gxWords : Vector Word 8 :=
  #v[0x32C4AE2C, 0x1F198119, 0x5F990446, 0x6A39C994, 0x8FE30BBF, 0xF2660BE1, 0x715A4589, 0x334C74C7]
def gyWords : Vector Word 8 :=
  #v[0xBC3736A2, 0xF4F6779C, 0x59BDCEE3, 0x6B692153, 0xD0A9877C, 0xC62A4740, 0x02DF32E5, 0x2139F0A0]

/-- The point G in PX and PY. -/
def atG : State := { State.reset with px := gxWords, py := gyWords }

/-- An encoding in PK with its length in PKLEN. -/
def encoded (pk : Vector Word 17) (l : BitVec 7) : State := { State.reset with pk := pk, pklen := l }

/-- The padded block of "abc" (section 2.2). -/
def abcBlock : Vector Word 16 := #v[0x61626380, 0, 0, 0, 0, 0, 0, 0, 0, 0, 0, 0, 0, 0, 0, 0x00000018]

/-- The digest S2 of "abc". -/
def digestAbc : Vector Word 8 :=
  #v[0x66c7f0f4, 0x62eeedd9, 0xd1f2d46b, 0xdc10e4e2, 0x4167c487, 0x5cf2f7a2, 0x297da02b, 0x8f4ba8e0]

/-- Row H3's end: "abc" in the stream. -/
def abcStream : State := { State.reset with din := 0x61626300, buf := [0x61, 0x62, 0x63], len := 3 }

/-! ## Well-formedness: what the check refuses -/

theorem test_write_of_no_byte_is_ill_formed : (Instr.sm3Write 0).wellFormed = false := by decide
theorem test_write_of_five_bytes_is_ill_formed : (Instr.sm3Write 5).wellFormed = false := by decide

/-! ## Decoding: words written out from 30_encoding.md R70 to R73, fields 31:14, MODE, 11:10, NBM1, OP -/

theorem test_decode_nop : decode 0b000000000000000000_00_00_00_00000000 = .ok .nop := by decide
theorem test_decode_init : decode 0b000000000000000000_00_00_00_00000001 = .ok .sm3Init := by decide
theorem test_decode_write : decode 0b000000000000000000_00_00_01_00000010 = .ok (.sm3Write 2) := by decide
theorem test_decode_sum : decode 0b000000000000000000_00_00_00_00000011 = .ok .sm3Sum := by decide
theorem test_decode_compress : decode 0b000000000000000000_00_00_00_00000100 = .ok .sm3Compress := by decide
theorem test_decode_ptDecode : decode 0b000000000000000000_00_00_00_00010000 = .ok .ptDecode := by decide
theorem test_decode_ptEncode : decode 0b000000000000000000_01_00_00_00010001 = .ok (.ptEncode .compress) := by decide

/-- The illegal words of section 4. -/
theorem test_decode_illegal :
    decode 0x00000005 = .error .unknownOp ∧ decode 0x00000012 = .error .unknownOp
    ∧ decode 0x000000FF = .error .unknownOp ∧ decode 0x00000101 = .error .nbm1OfOtherOp
    ∧ decode 0x00001002 = .error .modeOfOtherOp ∧ decode 0x00000402 = .error .reservedBits
    ∧ decode 0x00010002 = .error .reservedBits ∧ decode 0x00003011 = .error .modeReserved
    ∧ decode 0x80000003 = .error .reservedBits := by decide

/-- A word as the opcode table numbers it. -/
theorem test_decodeTableWord : decodeTableWord 32 0x302 = some (.sm3Write 4) ∧ decodeTableWord 32 0x5 = none := by decide

/-! ## Word functions (section 2.1) -/

theorem test_rol : rol 0x80000001 1 = 0x00000003 ∧ rol 0x12345678 36 = 0x23456781 := by decide
theorem test_perm : perm0 0x12345678 = 0xd6688234 ∧ perm1 0x12345678 = 0x05014549 := by decide
theorem test_ff : ff 0 0x0f0f0f0f 0x00ff00ff 0x33333333 = 0x3cc33cc3
    ∧ ff 16 0x0f0f0f0f 0x00ff00ff 0x33333333 = 0x033f033f := by decide
theorem test_gg : gg 16 0x0f0f0f0f 0x00ff00ff 0x33333333 = 0x303f303f := by decide
theorem test_roundConstant : rol (roundConstant 15) 15 = 0x228cbce6 ∧ rol (roundConstant 63) (63 % 32) = 0x3d43cec5 := by
  decide

/-- Section 2.2, round 0 of "abc". -/
theorem test_round : rounds (expand abcBlock.toList) (Working.load iv) 1 =
    ⟨0xb9edc12b, 0x7380166f, 0x29657292, 0x172442d7, 0xb2ad29f4, 0xa96f30bc, 0xc550b189, 0xe38dee4d⟩ := by decide +kernel

/-! ## One step of each command (sections 2.5, 3, 4) -/

/-- The example of R151: STATUS 0x00000026 before, 0 after. -/
theorem test_nop_clears_errors :
    { State.reset with err := true, berr := true, errcode := 2 }.status = 0x00000026
    ∧ (after (issue .nop { State.reset with err := true, berr := true, errcode := 2 })).status = 0x00000000 := by
  decide +kernel

/-- H2. -/
theorem test_init : after (exec .sm3Init { abcStream with v := Vector.replicate 8 0, digest := digestAbc, len := 130 })
    = { State.reset with din := 0x61626300, digest := digestAbc } := by decide +kernel

/-- H3. -/
theorem test_write : after (exec (.sm3Write 3) { State.reset with din := 0x61626300 }) = abcStream
    ∧ abcStream.status = 0x00000300 := by decide +kernel

/-- H9: the block fills at the second of four bytes. -/
theorem test_write_fills_a_block :
    let t := after (exec (.sm3Write 4) { withTail 62 State.reset with din := 0x62636465 })
    t.v = #v[0xd729ad2c, 0x94659472, 0xa32d6dd5, 0xd27ca5f2, 0x48f3f8bc, 0xda903f09, 0x925d2ab2, 0x38cb6d77]
    ∧ t.buf = [0x64, 0x65] ∧ t.len = 66 ∧ t.status = 0x00000200 := by decide +kernel

/-- H5. -/
theorem test_sum : after (exec .sm3Sum abcStream) = { State.reset with din := 0x61626300, digest := digestAbc } := by
  decide +kernel

/-- Section 2.4, n = 56: the smallest tail of two blocks. -/
theorem test_sum_two_blocks : (after (exec .sm3Sum (withTail 56 State.reset))).digest =
    #v[0xba00ebed, 0xaab54065, 0xa5fd4f9f, 0x56326016, 0x203166bc, 0xee3eed44, 0xea868d59, 0xd67aa3c8] := by
  decide +kernel

/-- H13. -/
theorem test_compress : after (exec .sm3Compress { State.reset with blk := abcBlock })
    = { State.reset with blk := abcBlock, v := digestAbc } := by decide +kernel

/-- D1. -/
theorem test_ptDecode_compressed : after (exec .ptDecode (encoded compressedG 33))
    = { encoded compressedG 33 with px := gxWords, py := gyWords } := by decide +kernel

/-- D14: prefix 07 with an even ordinate. -/
theorem test_ptDecode_parity : (after (exec .ptDecode (encoded (uncompressedG.set 0 0x0732c4ae) 65))).status
    = 0x00000022 := by decide +kernel

/-- E1. -/
theorem test_ptEncode_compress : after (exec (.ptEncode .compress) atG)
    = { atG with pk := compressedG, pklen := 33 } := by decide +kernel

/-- E3. -/
theorem test_ptEncode_mix : after (exec (.ptEncode .mix) atG)
    = { atG with pk := uncompressedG.set 0 0x0632c4ae, pklen := 65 } := by decide +kernel

/-- An illegal word of section 4. -/
theorem test_illegal_word : (after (step (State.reset.withFetchWord 32 0x10002))).status = 0x00000012 := by
  decide +kernel

/-! ## The window (section 5) -/

/-- B4, B5, B6. -/
theorem test_window :
    memWrite (regAt 0x020) 0xdeadbeef State.reset = State.reset
    ∧ (memRead (regAt 0x018) (memWrite (regAt 0x018) 0xFFFFFFC1 State.reset)).1 = 0x00000041
    ∧ memWrite (regAt 0x00C) 7 (busyFor 1 0 State.reset) = { busyFor 1 0 State.reset with berr := true } := by
  decide +kernel

/-! ## Witnesses: states and operands that meet the hypotheses of each obligation, at boundary values -/

/-- A state whose next step completes a word. -/
def due (c : Word) (s : State) : State := placePending c s

theorem due_due (c : Word) (s : State) : (due c s).Due c := ⟨rfl, rfl, rfl, rfl⟩

theorem witness_DecodeOfEncodeIsTheInstruction :
    (Instr.sm3Write 1).wellFormed = true ∧ (Instr.sm3Write 4).wellFormed = true
    ∧ (Instr.ptEncode .mix).wellFormed = true := by decide

theorem witness_EncodeOfDecodeIsTheWord : ∃ c i, decode c = .ok i := ⟨0x302, .sm3Write 4, by decide⟩

theorem witness_IllegalWordConditions : ∃ (c : Word) (r : IllegalReason) (s : State),
    decode c = .error r ∧ s.busy = false := ⟨0x3011, .modeReserved, State.reset, by decide, rfl⟩

theorem witness_StepRunsTheDecodedCommand :
    (∃ (s : State) (c : Word) (i : Instr), s.Due c ∧ decode c = .ok i)
    ∧ ∃ (w : Nat) (i : Instr), decodeTableWord 32 w = some i :=
  ⟨⟨_, 0x302, .sm3Write 4, due_due _ State.reset, by decide⟩, 0x2011, .ptEncode .mix, by decide⟩

theorem witness_OtherStepsAreTheHostsTurns :
    (∃ s : State, s.nextEvent = .quiet ∧ s.powerLost = false ∧ s.pending = none ∧ s.host.nextOp = some .halt)
    ∧ (∃ s : State, s.nextEvent = .quiet ∧ s.powerLost = false ∧ s.pending = none ∧ s.host.nextOp = none)
    ∧ (∃ (s : State) (c : Word), s.nextEvent = .quiet ∧ s.powerLost = false ∧ s.pending = some c ∧ s.wait = 0 + 1
        ∧ s.host.nextOp = some .halt)
    ∧ ∃ (s : State) (c : Word), s.nextEvent = .quiet ∧ s.powerLost = false ∧ s.pending = some c ∧ s.wait = 0 + 1
        ∧ s.host.nextOp = none :=
  ⟨⟨withOps [.halt] State.reset, by decide⟩, ⟨State.reset, by decide⟩,
    ⟨busyFor 1 0 (withOps [.halt] State.reset), 0, by decide⟩, ⟨busyFor 1 0 State.reset, 0, by decide⟩⟩

/-- Each register changes in some step without reset. -/
theorem witness_OnlyItsWritersChangeARegister :
    (∃ s t : State, s.nextEvent.isReset = false ∧ step s = .next t ∧ t.v ≠ s.v)
    ∧ (∃ s t : State, s.nextEvent.isReset = false ∧ step s = .next t ∧ t.buf ≠ s.buf ∧ t.len ≠ s.len
        ∧ t.digest ≠ s.digest)
    ∧ (∃ s t : State, s.nextEvent.isReset = false ∧ step s = .next t ∧ t.blk ≠ s.blk)
    ∧ (∃ s t : State, s.nextEvent.isReset = false ∧ step s = .next t ∧ t.px ≠ s.px ∧ t.py ≠ s.py)
    ∧ (∃ s t : State, s.nextEvent.isReset = false ∧ step s = .next t ∧ t.pk ≠ s.pk ∧ t.pklen ≠ s.pklen)
    ∧ ∃ s t : State, s.nextEvent.isReset = false ∧ step s = .next t ∧ t.err ≠ s.err ∧ t.errcode ≠ s.errcode
        ∧ t.pending ≠ s.pending :=
  ⟨⟨due 0x4 State.reset, _, by decide, next_after (by decide +kernel), by decide +kernel⟩,
    ⟨due 0x3 abcStream, _, by decide, next_after (by decide +kernel), by decide +kernel⟩,
    ⟨withOps [.st 0x080 (.imm 1)] State.reset, _, by decide, next_after (by decide +kernel), by decide +kernel⟩,
    ⟨due 0x10 (encoded compressedG 33), _, by decide, next_after (by decide +kernel), by decide +kernel⟩,
    ⟨due 0x11 atG, _, by decide, next_after (by decide +kernel), by decide +kernel⟩,
    ⟨due 0x5 State.reset, _, by decide, next_after (by decide +kernel), by decide +kernel⟩⟩

theorem witness_IllegalWordStepRaisesIllegalCommand : ∃ (s : State) (c : Word), s.Due c ∧
    c ∉ [(0x00000000 : Word), 0x00000001, 0x00000002, 0x00000102, 0x00000202, 0x00000302, 0x00000003, 0x00000004,
      0x00000010, 0x00000011, 0x00001011, 0x00002011] := ⟨_, 0x402, due_due _ State.reset, by decide⟩

/-- Two steps of LATENCY, in which the host writes and reads. -/
theorem witness_PendingCommandKeepsTheRegisters : ∃ (n : Nat) (s t : State) (c : Word), s.pending = some c ∧ n ≤ s.wait
    ∧ s.powerLost = false ∧ (∀ e ∈ s.env, e = EnvEvent.quiet) ∧ steps n s = .next t ∧ n = 2 :=
  ⟨2, busyFor 2 0x1 (withOps [.st 0x00C (.imm 7), .ld 0 0x000] State.reset), _, 0x1, rfl, by decide, rfl, by decide,
    next_after (by decide +kernel), rfl⟩

theorem witness_ResultIndependentOfLatency : ∃ (s t : State) (c : Word), s.pending = some c ∧ s.powerLost = false
    ∧ (∀ e ∈ s.env, e = EnvEvent.quiet) ∧ steps (s.wait + 1) s = .next t :=
  ⟨busyFor 2 0x3 (withOps [.st 0x00C (.imm 7), .ld 0 0x000] abcStream), _, 0x3, rfl, rfl, by decide,
    next_after (by decide +kernel)⟩

theorem witness_HaltedHostRunEnds : ∃ (s : State) (c : Word), s.pending = some c ∧ s.Quiet ∧ s.host.halted = true :=
  ⟨busyFor 3 0x1 { State.reset with host := { HostAgent.reset with halted := true } }, 0x1, rfl, ⟨rfl, rfl⟩, rfl⟩

theorem witness_BerrIsSetByDroppedWritesOnly :
    (∃ s t : State, step s = .next t ∧ s.berr = false ∧ t.berr = true)
    ∧ (∃ s t : State, step s = .next t ∧ s.berr = true ∧ t.berr = false ∧ s.nextEvent = .quiet)
    ∧ (∃ s t : State, step s = .next t ∧ s.berr = true ∧ t.berr = false ∧ s.nextEvent.isReset = true)
    ∧ (∃ (s t : State) (c : Word), step s = .next t ∧ s.Due c ∧ s.berr = true)
    ∧ (∃ (s t : State) (op : HostOp), s.busy = true ∧ s.host.nextOp = some op ∧ hostTurn s = .next t
      ∧ isBusWrite op = true)
    ∧ ∃ (s t : State) (op : HostOp), s.busy = true ∧ s.host.nextOp = some op ∧ hostTurn s = .next t
      ∧ isBusWrite op = false :=
  ⟨⟨busyFor 1 0x1 (withOps [.st 0x004 (.imm 0)] State.reset), _, next_after (by decide +kernel), rfl, by decide +kernel⟩,
    ⟨{ withOps [.st 0x004 (.imm 0)] State.reset with berr := true }, _, next_after (by decide +kernel), rfl,
      by decide +kernel, rfl⟩,
    ⟨{ State.reset with berr := true, env := [.resetBetween] }, _, next_after (by decide +kernel), rfl,
      by decide +kernel, rfl⟩,
    ⟨due 0x1 { State.reset with berr := true }, _, 0x1, next_after (by decide +kernel), due_due _ _, rfl⟩,
    ⟨busyFor 1 0x1 (withOps [.st 0x004 (.imm 0)] State.reset), _, .st 0x004 (.imm 0), rfl, by decide,
      next_after (by decide +kernel), rfl⟩,
    ⟨busyFor 1 0x1 (withOps [.ld 0 0x008] State.reset), _, .ld 0 0x008, rfl, by decide, next_after (by decide +kernel),
      rfl⟩⟩

theorem witness_ResetValues : ∃ s t : State, exec .sm3Init s = .next t := ⟨abcStream, _, exec_after _ _⟩

theorem witness_ResetEvent :
    (∃ s : State, s.nextEvent = .resetBetween ∧ s.busy = true ∧ s.powerLost = true)
    ∧ (∃ s t : State, s.nextEvent.isReset = true ∧ step s = .next t)
    ∧ (∃ (s : State) (op : HostOp), s.nextEvent = .resetHeld ∧ s.host.nextOp = some op ∧ isAccess op = true)
    ∧ (∃ (s : State) (op : HostOp), s.nextEvent = .resetHeld ∧ s.host.nextOp = some op ∧ isAccess op = false)
    ∧ ∃ s : State, s.nextEvent = .resetHeld ∧ s.host.nextOp = none :=
  ⟨⟨{ busyFor 1 0x3 abcStream with env := [.resetBetween], powerLost := true }, rfl, rfl, rfl⟩,
    ⟨{ busyFor 1 0x3 abcStream with env := [.resetHeld] }, _, rfl, next_after (by decide +kernel)⟩,
    ⟨{ withOps [.ld 0 0x008] State.reset with env := [.resetHeld] }, .ld 0 0x008, rfl, by decide, rfl⟩,
    ⟨{ withOps [.li 0 7] State.reset with env := [.resetHeld] }, .li 0 7, rfl, by decide, rfl⟩,
    ⟨{ State.reset with env := [.resetHeld] }, rfl, by decide⟩⟩

/-- Reset between two back-to-back accesses (R191): the host stores, the reset comes, the host loads. -/
theorem test_reset_between_accesses :
    let s := { withOps [.st 0x00C (.imm 7), .ld 0 0x00C] State.reset with env := [.quiet, .resetBetween] }
    isNext (steps 3 s) = true ∧ (after (steps 1 s)).din = 7 ∧ (after (steps 3 s)).din = 0
    ∧ (after (steps 3 s)).host.vars[0] = 0 ∧ (after (steps 3 s)).host.pc = 2 := by decide +kernel

theorem witness_OnlyResetAbandonsACommand :
    (∃ (s t : State) (c : Word), s.pending = some c ∧ s.nextEvent.isReset = false ∧ step s = .next t ∧ s.wait = 0)
    ∧ ∃ (s t : State) (c : Word), s.pending = some c ∧ s.nextEvent.isReset = false ∧ step s = .next t ∧ s.wait = 1 :=
  ⟨⟨due 0x3 abcStream, _, 0x3, rfl, by decide, next_after (by decide +kernel), rfl⟩,
    ⟨busyFor 1 0x3 abcStream, _, 0x3, rfl, by decide, next_after (by decide +kernel), rfl⟩⟩

theorem witness_PowerLossNeedsReset :
    (∃ s : State, s.nextEvent = .powerLoss ∧ s.busy = true)
    ∧ (∃ s : State, s.powerLost = true ∧ s.nextEvent = .quiet)
    ∧ ∃ s t : State, s.nextEvent.isReset = true ∧ step s = .next t ∧ s.powerLost = true :=
  ⟨⟨{ busyFor 0 0x3 abcStream with env := [.powerLoss] }, rfl, rfl⟩,
    ⟨{ State.reset with powerLost := true }, rfl, rfl⟩,
    ⟨{ State.reset with powerLost := true, env := [.resetBetween] }, _, rfl, next_after (by decide +kernel), rfl⟩⟩

/-- A full buffer, about to take four bytes. -/
theorem witness_InvariantKeptByEveryStep : ∃ s t : State, s.Inv ∧ step s = .next t ∧ s.buf.length = 63 :=
  ⟨due 0x302 (withTail 63 State.reset), _, ⟨by decide, by decide, by decide, by decide⟩, next_after (by decide +kernel),
    by decide⟩

theorem witness_IdIsHardwired : ∃ s : State, s.busy = false := ⟨State.reset, rfl⟩

theorem witness_RegisterMapReads : ∃ s : State, s.busy = false ∧ s.pklen = 127 := ⟨encoded compressedG 127, rfl, rfl⟩

theorem witness_CommandAcceptance : ∃ s : State, s.busy = false ∧ s.berr = true :=
  ⟨{ State.reset with berr := true }, rfl, rfl⟩

theorem witness_BusyWriteIsDropped :
    ∃ (s : State) (c : Word) (t : State), s.busy = true ∧ s.pending = some c ∧ complete c s = .next t :=
  ⟨busyFor 1 0x3 abcStream, 0x3, _, rfl, rfl, next_after (by decide +kernel)⟩

theorem witness_BusyReads : ∃ s : State, s.busy = true ∧ s.berr = true :=
  ⟨{ busyFor 1 0x3 abcStream with berr := true }, rfl, rfl⟩

/-- Every reserved range and every read-only range at both ends. -/
theorem witness_ReservedAndReadOnlyIgnoreWrites :
    (∀ off ∈ [0x01C, 0x060, 0x07C, 0x144, 0x3FC],
      off % 4 = 0 ∧ (off = 0x01C ∨ (0x060 ≤ off ∧ off ≤ 0x07C) ∨ (0x144 ≤ off ∧ off ≤ 0x3FC)))
    ∧ ∀ off ∈ [0x000, 0x008, 0x010, 0x014, 0x020, 0x05C],
      off % 4 = 0 ∧ (off = 0x000 ∨ off = 0x008 ∨ off = 0x010 ∨ off = 0x014 ∨ (0x020 ≤ off ∧ off ≤ 0x05C)) := by decide

theorem witness_WriteThenRead :
    State.reset.busy = false
    ∧ (∀ off ∈ [0x00C, 0x080, 0x140], off % 4 = 0 ∧ off < 0x400 ∧ (off = 0x00C ∨ (0x080 ≤ off ∧ off < 0x144)))
    ∧ ∀ off ∈ [0x000, 0x018, 0x3FC], off % 4 = 0 ∧ off < 0x400 ∧ off ≠ 0x004 ∧ (0x008 : Nat) ≠ off := by decide

theorem witness_StatusLayout : (withTail 63 State.reset).busy = false ∧ (withTail 63 State.reset).buf.length < 64 := by
  decide

theorem witness_OtherAccessesAreRefused :
    (∃ off bytes : Nat, off < 0x400 ∧ off = 0x3FC ∧ bytes = 2 ∧ (bytes ≠ 4 ∨ off % 4 ≠ 0))
    ∧ ∃ off : Nat, off < 0x400 ∧ off = 0x3FF ∧ off % 4 ≠ 0 := ⟨⟨_, _, by decide, rfl, rfl, by decide⟩, _, by decide, rfl, by decide⟩

theorem witness_BusAddressesReachTheWindow (s : State) :
    (∃ off : Nat, off < 0x400 ∧ off % 4 = 0 ∧ off = 0x3FC) ∧ (∃ off : Nat, off < 0x400 ∧ off = 0x3FF)
    ∧ (∃ addr : Nat, addr < Config.engineBase s.inst ∨ Config.engineBase s.inst + 0x400 ≤ addr)
    ∧ ∃ off : Nat, 0x400 ≤ off ∧ off = 0x400 :=
  ⟨⟨_, by decide, by decide, rfl⟩, ⟨_, by decide, rfl⟩, ⟨_, .inr le_rfl⟩, ⟨_, by decide, rfl⟩⟩

theorem witness_PklenField :
    (State.reset.busy = false ∧ (127 : Nat) ≤ 127)
    ∧ (∃ w w' : Word, w ≠ w' ∧ w.extractLsb' 0 7 = w'.extractLsb' 0 7)
    ∧ (∃ s t : State, exec .ptDecode s = .next t ∧ t.err = false ∧ s.pklen = 33)
    ∧ (∃ s t : State, exec .ptDecode s = .next t ∧ t.err = false ∧ s.pklen = 65)
    ∧ ∃ (s t : State), exec (.ptEncode .mix) s = .next t :=
  ⟨by decide, ⟨0xFFFFFFC1, 0x41, by decide, by decide⟩,
    ⟨encoded compressedG 33, _, exec_after _ _, by decide +kernel, rfl⟩,
    ⟨encoded uncompressedG 65, _, exec_after _ _, by decide +kernel, rfl⟩, ⟨atG, _, exec_after _ _⟩⟩

theorem witness_HostLocalOperations :
    let h : HostAgent := { HostAgent.reset with prog := [⟨[3], .halt⟩, ⟨[4, 5], .halt⟩, ⟨[5], .halt⟩] }
    (∃ (k : Nat) (line : HostLine), h.prog[k]? = some line ∧ 5 ∈ line.labels
      ∧ (∀ j < k, ∀ line, h.prog[j]? = some line → 5 ∉ line.labels) ∧ k = 1)
    ∧ (∀ line ∈ h.prog, 6 ∉ line.labels) ∧ h.vars[7] = 0
    ∧ ({ h with vars := Vector.replicate 8 1 } : HostAgent).vars[7] ≠ 0 := by
  refine ⟨⟨1, ⟨[4, 5], .halt⟩, rfl, by decide, ?_, rfl⟩, by decide, by decide, by decide⟩
  intro j hj line hl
  obtain rfl : j = 0 := by omega
  cases hl
  decide

theorem witness_InstancesAreIndependent :
    (∃ (p q : Platform) (k j : Nat), p.stepAt k = .next q ∧ j ≠ k ∧ j < p.length)
    ∧ (∃ s t : State, step s = .next t ∧ s.inst = 1)
    ∧ (∃ (k : Nat) (s : State), Platform.reset[k]? = some s) ∧ (0 : Nat) ≠ 1 :=
  ⟨⟨[State.reset, due 0x3 { abcStream with inst := 1 }], _, 1, 0, rfl, by decide, by decide⟩,
    ⟨due 0x3 { abcStream with inst := 1 }, _, next_after (by decide +kernel), rfl⟩,
    ⟨0, { State.reset with inst := 0 }, by simp [Platform.reset, Config.instances]⟩, by decide⟩

theorem witness_BooleanFunctions : (15 < 64 ∧ 15 < 16) ∧ (16 ≤ 16 ∧ 16 < 64) ∧ (16 ≤ 63 ∧ 63 < 64) ∧ 31 < 32 := by decide

theorem witness_ScheduleRecurrence : abcBlock.toList.length = 16 ∧ (16 ≤ 67 ∧ 67 ≤ 67) ∧ 63 < 64 := by decide

theorem witness_CompressionFunction :
    (15 < 64 ∧ 15 < 16) ∧ (16 ≤ 16 ∧ 16 < 64) ∧ (16 ≤ 63 ∧ 63 < 64) ∧ (unpackWords abcBlock).length = 64 := by decide

theorem witness_PaddingShape :
    (∃ buf : List Byte, buf.length ≤ 55 ∧ buf.length = 55) ∧ (∃ buf : List Byte, buf.length ≤ 63 ∧ 56 ≤ buf.length)
    ∧ 2 ^ 61 - 1 ≤ 2 ^ 61 - 1 :=
  ⟨⟨List.replicate 55 0, by decide, by decide⟩, ⟨List.replicate 63 0, by decide, by decide⟩, by decide⟩

theorem witness_Sm3InitResult :
    (∃ c : Word, c.extractLsb' 0 8 = 0x01 ∧ c ≠ 0x00000001) ∧ ∃ s t : State, exec .sm3Init s = .next t :=
  ⟨⟨0x101, by decide, by decide⟩, abcStream, _, exec_after _ _⟩

/-- Both sides of MAX_LEN: rows H11 and H12. -/
theorem witness_Sm3WriteResult :
    (∃ (s : State) (nb : Nat), 1 ≤ nb ∧ nb ≤ 4 ∧ s.buf.length ≤ 63 ∧ 2 ^ 61 - 1 < s.len.toNat + nb)
    ∧ ∃ (s : State) (nb : Nat), 1 ≤ nb ∧ nb ≤ 4 ∧ s.buf.length ≤ 63 ∧ s.len.toNat + nb = 2 ^ 61 - 1 :=
  ⟨⟨{ withTail 62 State.reset with len := BitVec.ofNat 64 (2 ^ 61 - 2) }, 2, by decide⟩,
    ⟨{ withTail 62 State.reset with len := BitVec.ofNat 64 (2 ^ 61 - 2) }, 1, by decide⟩⟩

theorem witness_Sm3SumResult :
    ((withTail 55 State.reset).buf.length ≤ 55 ∧ (withTail 63 State.reset).buf.length ≤ 63)
    ∧ (State.reset.len = 0 ∧ State.reset.buf = [] ∧ State.reset.v = iv)
    ∧ ∃ s t : State, s.buf.length ≤ 63 ∧ exec .sm3Sum s = .next t :=
  ⟨by decide, by decide, withTail 56 State.reset, _, by decide, exec_after _ _⟩

theorem witness_Sm3CompressResult : ∃ s t : State, exec .sm3Compress s = .next t := ⟨abcStream, _, exec_after _ _⟩

theorem witness_StreamingEqualsOneShot : ∃ (pieces : List Piece) (s : State), PiecesOk pieces
    ∧ (message pieces).length ≤ 2 ^ 61 - 1 ∧ s.busy = false ∧ pieces.length = 2 :=
  ⟨[([0x61], 0xFFFFFFFF), ([0x62, 0x63, 0x64, 0x65], 0)], withTail 62 State.reset, by unfold PiecesOk; decide, by decide,
    rfl, rfl⟩

theorem abc_stream : StreamOf [0x61, 0x62, 0x63] abcStream := ⟨by decide, by decide, by decide +kernel⟩

theorem witness_StreamInvariant :
    (∃ s t : State, exec .sm3Init s = .next t ∨ exec .sm3Sum s = .next t)
    ∧ (∃ (m : List Byte) (s t : State) (nb : Nat), nb ≤ 4 ∧ StreamOf m s ∧ exec (.sm3Write nb) s = .next t
        ∧ t.err = false)
    ∧ (∃ (m : List Byte) (s t : State) (i : Instr),
        i ∈ [Instr.nop, .ptDecode, .ptEncode .nocompress, .ptEncode .compress, .ptEncode .mix] ∧ StreamOf m s
        ∧ exec i s = .next t)
    ∧ ∃ (m : List Byte) (s t : State), StreamOf m s ∧ exec .sm3Sum s = .next t :=
  ⟨⟨abcStream, _, .inl (exec_after _ _)⟩, ⟨_, abcStream, _, 4, by decide, abc_stream, exec_after _ _, by decide +kernel⟩,
    ⟨_, abcStream, _, .ptDecode, by decide, abc_stream, exec_after _ _⟩, ⟨_, abcStream, _, abc_stream, exec_after _ _⟩⟩

theorem witness_SumLeavesAFreshEngine : ∃ (s t u a b : State) (pieces : List Piece), exec .sm3Sum s = .next t
    ∧ exec .sm3Init s = .next u ∧ andThen (writePieces pieces t) (issue .sm3Sum) = .next a
    ∧ andThen (writePieces pieces State.reset) (issue .sm3Sum) = .next b :=
  ⟨abcStream, _, _, _, _, [([0x61, 0x62, 0x63], 0)], exec_after _ _, exec_after _ _, next_after (by decide +kernel),
    next_after (by decide +kernel)⟩

theorem witness_SixteenWordsAreTheBlock : ∃ (s t : State) (ws : Vector Word 16), s.busy = false ∧ s.buf = []
    ∧ s.len.toNat + 64 ≤ 2 ^ 61 - 1 ∧ writePieces (ws.toList.map fun w => (wordBytes w, 0)) s = .next t :=
  ⟨State.reset, _, abcBlock, rfl, rfl, by decide, next_after (by decide +kernel)⟩

theorem g_root : IsRoot Curve.gx Curve.gy := ⟨by decide, by decide +kernel⟩

/-- Row D10: rhs(2) is not a square. -/
theorem no_root_of_two : ¬ ∃ y, IsRoot 2 y := by
  rintro ⟨y, hy⟩
  have h : decompress 2 0 = .error .notOnCurve := by decide +kernel
  rcases decompress_cases 2 0 with ⟨k, _⟩ | ⟨_, _, k⟩ | ⟨_, _, _, k⟩
  · exact k y hy
  · rw [h] at k; simp at k
  · rw [h] at k; simp at k

theorem witness_DecompressIsTheRootOfTheParity :
    (Curve.gx < Curve.p ∧ IsRoot Curve.gx Curve.gy ∧ Curve.gy % 2 = 0) ∧ ((2 : Nat) < Curve.p ∧ ¬ ∃ y, IsRoot 2 y) :=
  ⟨⟨by decide, g_root, by decide⟩, by decide, no_root_of_two⟩

theorem witness_NoPointWithOrdinateZero :
    (∃ x y : Nat, x < Curve.p ∧ IsRoot x y)
    ∧ ∃ (x : Nat) (s t : State), x < Curve.p ∧ s.pklen = 33 ∧ s.pkb.getD 0 0 ∈ [(0x02 : Byte), 0x03]
        ∧ x = bytesToNat ((s.pkb.drop 1).take 32) ∧ exec .ptDecode s = .next t :=
  ⟨⟨_, _, by decide, g_root⟩, _, encoded compressedG 33, _, by decide +kernel, rfl, by decide +kernel, rfl,
    exec_after _ _⟩

theorem witness_PtDecodeRejectsLengthAndPrefix :
    (encoded uncompressedG 0).pklen = 0
    ∧ (encoded (uncompressedG.set 0 0x0832c4ae) 33).pkb.getD 0 0 ∉ [(0x02 : Byte), 0x03, 0x04, 0x06, 0x07]
    ∧ ((encoded compressedG 65).pkb.getD 0 0 ∈ [(0x02 : Byte), 0x03] ∧ (encoded compressedG 65).pklen ≠ 33)
    ∧ ((encoded uncompressedG 33).pkb.getD 0 0 ∈ [(0x04 : Byte), 0x06, 0x07] ∧ (encoded uncompressedG 33).pklen ≠ 65) := by
  decide +kernel

/-- X or Y of the encoding in a state. -/
def xOf (s : State) : Nat := bytesToNat ((s.pkb.drop 1).take 32)
def yOf (s : State) : Nat := bytesToNat ((s.pkb.drop 33).take 32)

/-- Rows D14, D12 and D3: a parity that does not fit, an ordinate off the curve, G. -/
theorem witness_PtDecodeWithOrdinate :
    (∃ s : State, s.pklen = 65 ∧ s.pkb.getD 0 0 = 0x07 ∧ yOf s % 2 ≠ (0x07 : Byte).toNat % 2)
    ∧ (∃ s : State, s.pklen = 65 ∧ s.pkb.getD 0 0 = 0x04
        ∧ yOf s * yOf s % Curve.p ≠ (xOf s ^ 3 + Curve.a * xOf s + Curve.b) % Curve.p)
    ∧ ∃ s : State, s.pklen = 65 ∧ s.pkb.getD 0 0 = 0x04 ∧ xOf s < Curve.p ∧ yOf s < Curve.p
        ∧ yOf s * yOf s % Curve.p = (xOf s ^ 3 + Curve.a * xOf s + Curve.b) % Curve.p :=
  ⟨⟨encoded (uncompressedG.set 0 0x0732c4ae) 65, by decide +kernel⟩,
    ⟨encoded (uncompressedG.set 16 0xa1000000) 65, by decide +kernel⟩, ⟨encoded uncompressedG 65, by decide +kernel⟩⟩

/-- X = p (row D11), an X without a root (row D10), G (row D1). -/
theorem witness_PtDecodeCompressed :
    (∃ s : State, s.pklen = 33 ∧ s.pkb.getD 0 0 ∈ [(0x02 : Byte), 0x03] ∧ Curve.p = xOf s)
    ∧ (∃ s : State, s.pklen = 33 ∧ s.pkb.getD 0 0 ∈ [(0x02 : Byte), 0x03] ∧ ¬ ∃ y, IsRoot (xOf s) y)
    ∧ ∃ (s : State) (y : Nat), s.pklen = 33 ∧ s.pkb.getD 0 0 = 0x02 ∧ xOf s < Curve.p ∧ IsRoot (xOf s) y
        ∧ y % 2 = (0x02 : Byte).toNat % 2 := by
  refine ⟨⟨encoded (packWords 17 ([0x02] ++ natToBytes 32 Curve.p)) 33, by decide +kernel⟩,
    ⟨encoded (packWords 17 ([0x02] ++ natToBytes 32 2)) 33, rfl, by decide +kernel, ?_⟩,
    ⟨encoded compressedG 33, Curve.gy, rfl, by decide +kernel, by decide +kernel, ?_, by decide⟩⟩
  · rw [show xOf (encoded (packWords 17 ([0x02] ++ natToBytes 32 2)) 33) = 2 by decide +kernel]
    exact no_root_of_two
  · rw [show xOf (encoded compressedG 33) = Curve.gx by decide +kernel]
    exact g_root

theorem witness_DecodedPointIsOnTheCurve :
    (∃ s t : State, exec .ptDecode s = .next t ∧ t.err = false)
    ∧ ∃ s t : State, s.pkb.getD 0 0 = 0x00 ∧ exec .ptDecode s = .next t :=
  ⟨⟨encoded compressedG 33, _, exec_after _ _, by decide +kernel⟩, State.reset, _, by decide +kernel, exec_after _ _⟩

theorem witness_PointCodecRoundTrip : onCurve (coordValue atG.px) (coordValue atG.py) = true := by decide +kernel

theorem witness_NopResult : ∃ s t : State, s.busy = false ∧ issue .nop s = .next t :=
  ⟨withTail 63 State.reset, _, rfl, next_after (by decide +kernel)⟩

theorem witness_FailedCommandIsPrecise : ∃ (s t : State) (c : Word), complete c s = .next t ∧ t.err = true :=
  ⟨encoded uncompressedG 33, _, 0x10, next_after (by decide +kernel), by decide +kernel⟩

theorem witness_ErrorsOfEachCommand :
    (∃ (s t : State) (c : Word) (r : IllegalReason), complete c s = .next t ∧ decode c = .error r)
    ∧ (∃ (s t : State) (c : Word), complete c s = .next t ∧ decode c = .ok (.sm3Write 4))
    ∧ (∃ (s t : State) (c : Word), complete c s = .next t ∧ decode c = .ok .ptDecode)
    ∧ ∃ (s t : State) (c : Word), complete c s = .next t ∧ decode c = .ok .sm3Sum :=
  ⟨⟨State.reset, _, 0x5, .unknownOp, next_after (by decide +kernel), by decide⟩,
    ⟨withTail 63 State.reset, _, 0x302, next_after (by decide +kernel), by decide⟩,
    ⟨encoded uncompressedG 65, _, 0x10, next_after (by decide +kernel), by decide⟩,
    ⟨withTail 63 State.reset, _, 0x3, next_after (by decide +kernel), by decide⟩⟩

theorem witness_CommandFrames : ∃ (s t : State) (i : Instr), exec i s = .next t := ⟨abcStream, _, .sm3Sum, exec_after _ _⟩

/-- Two states that agree on PK and PKLEN and differ in every other register of the codec and of the stream. -/
theorem witness_CommandReadsOnlyItsOperands : ∃ (i : Instr) (s s' t t' : State), i.wellFormed = true
    ∧ AgreeOnReads i s s' ∧ exec i s = .next t ∧ exec i s' = .next t' ∧ t.err = false ∧ s.px ≠ s'.px ∧ s.buf ≠ s'.buf :=
  ⟨.ptDecode, encoded compressedG 33, { abcStream with pk := compressedG, pklen := 33, px := gyWords }, _, _, rfl,
    ⟨rfl, rfl⟩, exec_after _ _, exec_after _ _, by decide +kernel, by decide +kernel, by decide⟩

end Sys2Proof.Tests
end

section
/-! Rotate left (spec/00_scope.md R10): what `rol` is as a number, and that it reads only `n % 32`. -/
namespace Sys2Proof.Machine

/-- R10's two shifts: bits shifted out on the left are cut off modulo 2^32, and the right shift never reaches 2^32. -/
theorem toNat_rol (x : Word) (n : Nat) :
    (rol x n).toNat = (x.toNat * 2 ^ (n % 32) ||| x.toNat / 2 ^ (32 - n % 32)) % 2 ^ 32 := by
  have hright : x.toNat / 2 ^ (32 - n % 32) < 2 ^ 32 := Nat.lt_of_le_of_lt (Nat.div_le_self _ _) x.isLt
  rw [rol, BitVec.toNat_rotateLeft, Nat.mod_mod, Nat.shiftLeft_eq, Nat.shiftRight_eq_div_pow, Nat.or_mod_two_pow,
    Nat.mod_eq_of_lt hright]

@[simp] theorem rol_mod (x : Word) (n : Nat) : rol x (n % 32) = rol x n := by
  rw [rol, rol, Nat.mod_mod]

/-- With no shift the right part is 0, even though its shift count is then the whole width. -/
@[simp] theorem rol_zero (x : Word) : rol x 0 = x := by
  have hright : x.toNat / 2 ^ 32 = 0 := Nat.div_eq_of_lt x.isLt
  apply BitVec.eq_of_toNat_eq
  rw [toNat_rol, Nat.zero_mod, Nat.pow_zero, Nat.mul_one, Nat.sub_zero, hright, Nat.or_zero, Nat.mod_eq_of_lt x.isLt]

/-- Settles O35: the two shifts by `toNat_rol`, the identity at 0, and the count read modulo 32. -/
theorem rotateLeft : Obligations.RotateLeft := by
  unfold Obligations.RotateLeft
  exact fun x n => ⟨toNat_rol x n, rol_zero x, (rol_mod x n).symm⟩

end Sys2Proof.Machine
end

section
/-! The commands: what the decoder lets through, and what each of them leaves unchanged (spec/30_encoding.md R72, R74). -/
namespace Sys2Proof.Machine

/-- The byte count of an SM3_WRITE that is decoded is NBM1 + 1 (R72). -/
theorem nb_of_decode {c : Word} {nb : Nat} (h : decode c = .ok (.sm3Write nb)) : nb = (Field.nbm1 c).toNat + 1 := by
  have hmode (m : BitVec 2) : (decodeMode m).map Instr.ptEncode ≠ .ok (.sm3Write nb) := by
    cases decodeMode m <;> simp [Except.map]
  unfold decode at h
  split_ifs at h <;> simp [hmode] at h
  exact h.symm

/-- What the decoder accepts is well-formed (R72, R73). -/
theorem wellFormed_of_decode {c : Word} {i : Instr} (h : decode c = .ok i) : i.wellFormed = true := by
  cases i with
  | sm3Write nb =>
    have hnb := nb_of_decode h
    have hlt := (Field.nbm1 c).isLt
    simp only [Instr.wellFormed, Bool.and_eq_true, decide_eq_true_eq]
    omega
  | nop | sm3Init | sm3Sum | sm3Compress | ptDecode | ptEncode _ => rfl

/-- A completion, failed or not, writes only STATUS, PENDING and the registers R74 gives the command. -/
theorem exec_frame {i : Instr} {s t : State} (h : exec i s = .next t) : FrameOf i s t := by
  rw [exec_next h]
  cases i with
  | nop | sm3Init | sm3Sum | sm3Compress | ptEncode _ => rfl
  | sm3Write nb =>
    by_cases hc : s.len.toNat + nb ≤ maxLen
    · rw [perform_sm3Write_ok hc]; rfl
    · rw [perform_sm3Write_error (Nat.lt_of_not_le hc)]; rfl
  | ptDecode =>
    cases hd : decodePoint s.pklen.toNat s.pkb with
    | error e => rw [perform_ptDecode_error hd]; rfl
    | ok q => rw [perform_ptDecode_ok hd]; rfl

/-- No command writes BERR (10_state.md R34). -/
theorem frame_berr {i : Instr} {s t : State} (h : FrameOf i s t) : t.berr = s.berr := by
  cases i with
  | nop | sm3Init | sm3Write _ | sm3Sum | sm3Compress | ptDecode | ptEncode _ => rw [show t = _ from h]

/-- A completion keeps BERR (10_state.md R34). -/
theorem complete_berr {c : Word} {s t : State} (h : complete c s = .next t) : t.berr = s.berr := by
  rcases complete_cases c s with ⟨i, hd, -⟩ | ⟨r, -, he⟩
  · rw [complete_ok hd] at h
    exact frame_berr (exec_frame h)
  · rw [he] at h
    cases h
    rfl

end Sys2Proof.Machine
end

section
/-! The host's turn and the step: what they can change, said once (spec/20_memory.md R53, R57, spec/10_state.md R42). -/
namespace Sys2Proof.Machine

/-- A write to the idle engine leaves every register that is the engine's own: V, DIGEST, BUF, LEN, ERR and ERRCODE
(R53, R55, R56). -/
theorem writeReg_frame (r : Reg) (w : Word) (s : State) :
    writeReg r w s =
      { s with blk := (writeReg r w s).blk, din := (writeReg r w s).din, px := (writeReg r w s).px
               py := (writeReg r w s).py, pk := (writeReg r w s).pk, pklen := (writeReg r w s).pklen
               pending := (writeReg r w s).pending, berr := (writeReg r w s).berr, wait := (writeReg r w s).wait
               draws := (writeReg r w s).draws } := by
  cases r <;> rfl

/-- A write to the idle engine leaves BERR, or it is an acceptance, which clears it (R34, R56). -/
theorem writeReg_berr (r : Reg) (w : Word) (s : State) :
    (writeReg r w s).berr = s.berr ∨ ((writeReg r w s).berr = false ∧ (writeReg r w s).busy = true) := by
  cases r with
  | cmd => exact .inr ⟨rfl, rfl⟩
  | id | status | din | lenLo | lenHi | pklen | v _ | digest _ | blk _ | px _ | py _ | pk _ | reserved => exact .inl rfl

/-- What a turn of the host does to the engine: a bus write of some register, or nothing but the counter of free
values. -/
theorem hostTurn_cases {s t : State} (h : hostTurn s = .next t) :
    (∃ op, s.host.nextOp = some op ∧ isBusWrite op = true ∧ ∃ r w, t = { memWrite r w s with host := t.host }) ∨
    ((∀ op, s.host.nextOp = some op → isBusWrite op = false) ∧ ∃ d, t = { s with draws := d, host := t.host }) := by
  cases hop : s.host.nextOp with
  | none =>
    rw [hostTurn_idle hop] at h
    cases h
    exact .inr ⟨nofun, s.draws, rfl⟩
  | some op =>
    rw [hostTurn_op hop] at h
    rcases hostExec_next h with ⟨hw, hr⟩ | ⟨hw, hd⟩
    · exact .inl ⟨op, rfl, hw, hr⟩
    · exact .inr ⟨by rintro _ ⟨⟩; exact hw, hd⟩

/-- The turn of a host at an idle engine: it writes a register, or it leaves them all. -/
theorem hostTurn_idle_cases {s t : State} (hb : s.busy = false) (h : hostTurn s = .next t) :
    (s.HostWrites ∧ ∃ r w, t = { writeReg r w s with host := t.host }) ∨
    ∃ d, t = { s with draws := d, host := t.host } := by
  rcases hostTurn_cases h with ⟨op, hop, hw, r, w, ht⟩ | ⟨-, hd⟩
  · rw [memWrite_idle hb] at ht
    exact .inl ⟨⟨hb, op, hop, hw⟩, r, w, ht⟩
  · exact .inr hd

/-- The engine's own registers, ERR and ERRCODE included, are out of the host's reach. -/
theorem hostTurn_frame {s t : State} (h : hostTurn s = .next t) :
    t.v = s.v ∧ t.digest = s.digest ∧ t.buf = s.buf ∧ t.len = s.len ∧ t.err = s.err ∧ t.errcode = s.errcode := by
  cases hb : s.busy with
  | true =>
    rw [hostTurn_busy hb h]
    simp
  | false =>
    rcases hostTurn_idle_cases hb h with ⟨-, r, w, ht⟩ | ⟨d, ht⟩
    · rw [ht, writeReg_frame]
      simp
    · rw [ht]
      simp

/-- The turn of a host at a busy engine: a bus write sets BERR, nothing else changes it (R57). -/
theorem hostTurn_busy_berr {s t : State} (hb : s.busy = true) (h : hostTurn s = .next t) :
    t.berr = (s.berr || s.host.nextOp.any isBusWrite) := by
  rcases hostTurn_cases h with ⟨op, hop, hw, r, w, ht⟩ | ⟨hn, d, ht⟩
  · rw [ht, memWrite_busy hb, hop]
    simp [hw]
  · rw [ht]
    cases hop : s.host.nextOp with
    | none => simp
    | some op => simp [hn op hop]

/-- A step without reset completes the due command, or is a host write to the idle engine, or leaves every register but
BERR. -/
theorem step_cases_of_not_reset {s t : State} (hr : s.nextEvent.isReset = false) (h : step s = .next t) :
    (∃ c, s.Due c ∧ complete c s.popEvent = .next t) ∨
    (s.HostWrites ∧ ∃ r w, t = { writeReg r w s.popEvent with host := t.host }) ∨
    t = { s with berr := t.berr, wait := t.wait, draws := t.draws, powerLost := t.powerLost, env := t.env
                 host := t.host } := by
  rcases step_cases h with ⟨he, -⟩ | ⟨-, ht⟩ | ⟨he, hl, ⟨c, hp, hw, hc⟩ | ⟨c, k, hp, hw, hc⟩ | ⟨hp, hc⟩⟩
  · rw [he] at hr
    cases hr
  · rw [ht]
    exact .inr (.inr rfl)
  · exact .inl ⟨c, ⟨hp, hw, he, hl⟩, hc⟩
  · have hb : ({ s.popEvent with wait := k } : State).busy = true := (busy_iff _).2 ⟨c, hp⟩
    rw [hostTurn_busy hb hc]
    exact .inr (.inr rfl)
  · have hb : s.popEvent.busy = false := (not_busy_iff _).2 hp
    rcases hostTurn_idle_cases hb hc with ⟨hw, hs⟩ | ⟨d, ht⟩
    · exact .inr (.inl ⟨hw, hs⟩)
    · rw [ht]
      exact .inr (.inr rfl)

end Sys2Proof.Machine
end

section
/-! The invariant of the registers (spec/10_state.md R29, R30, R33): it holds at reset and every step keeps it. -/
namespace Sys2Proof.Machine

/-- The invariant speaks of BUF, LEN, ERR and ERRCODE alone. -/
theorem inv_congr {s t : State} (h : s.Inv) (hb : t.buf = s.buf) (hl : t.len = s.len) (he : t.err = s.err)
    (hc : t.errcode = s.errcode) : t.Inv :=
  ⟨by rw [hb, hl]; exact h.buf_length, by rw [hl]; exact h.len_le, by rw [hc]; exact h.errcode_le,
    by rw [he, hc]; exact h.err_iff⟩

theorem reset_inv : State.reset.Inv := ⟨rfl, by decide, by decide, by decide⟩

theorem succeed_inv {u : State} (hb : u.buf.length = u.len.toNat % 64) (hl : u.len.toNat ≤ maxLen) : (succeed u).Inv :=
  ⟨hb, hl, by simp, by simp⟩

theorem code_toNat_le (e : ErrorKind) : e.code.toNat ≤ 4 := by cases e <;> decide

theorem raise_inv {s : State} (h : s.Inv) (e : ErrorKind) : (raise e s).Inv :=
  ⟨h.buf_length, h.len_le, code_toNat_le e, by simpa using code_ne_zero e⟩

/-- The loop of SM3_WRITE counts the buffer modulo a block (R95). -/
theorem foldl_appendByte_buf_length (bs : List Byte) (s : State) (hs : s.buf.length ≤ 63) (hb : bs.length ≤ 64) :
    (bs.foldl appendByte s).buf.length = (s.buf.length + bs.length) % 64 := by
  rw [foldl_appendByte bs s hs hb]
  dsimp only
  split <;> simp only [List.length_append, List.length_drop] at * <;> omega

/-- An accepted count does not wrap LEN: MAX_LEN is below 2^64 (R29, R95). -/
theorem len_add_toNat {len : BitVec 64} {nb : Nat} (h : len.toNat + nb ≤ maxLen) :
    (len + BitVec.ofNat 64 nb).toNat = len.toNat + nb := by
  simp only [maxLen] at h
  rw [BitVec.toNat_add, BitVec.toNat_ofNat, Nat.add_mod_mod, Nat.mod_eq_of_lt (by omega)]

/-- The end of a command, failed or not, keeps the invariant; SM3_WRITE by its check of MAX_LEN and its at most four
bytes. -/
theorem finish_perform_inv {i : Instr} (hi : i.wellFormed = true) {s : State} (h : s.Inv) :
    (finish s (perform i s)).Inv := by
  cases i with
  | nop => exact succeed_inv h.buf_length h.len_le
  | sm3Init => exact succeed_inv rfl (Nat.zero_le _)
  | sm3Sum => exact succeed_inv rfl (Nat.zero_le _)
  | sm3Compress => exact succeed_inv h.buf_length h.len_le
  | ptEncode mode => exact succeed_inv h.buf_length h.len_le
  | ptDecode =>
    cases hd : decodePoint s.pklen.toNat s.pkb with
    | error e => rw [perform_ptDecode_error hd]; exact raise_inv h e
    | ok q => rw [perform_ptDecode_ok hd]; exact succeed_inv h.buf_length h.len_le
  | sm3Write nb =>
    by_cases hc : s.len.toNat + nb ≤ maxLen
    · simp only [Instr.wellFormed, Bool.and_eq_true, decide_eq_true_eq] at hi
      have hbuf := h.buf_length
      have hdin := dinBytes_length s.din nb hi.2
      rw [perform_sm3Write_ok hc]
      refine succeed_inv ?_ ?_
      · rw [foldl_appendByte_buf_length _ _ (by omega) (by omega), len_add_toNat hc]
        omega
      · rw [len_add_toNat hc]
        exact hc
    · rw [perform_sm3Write_error (Nat.lt_of_not_le hc)]
      exact raise_inv h _

theorem complete_inv {c : Word} {s t : State} (h : s.Inv) (hc : complete c s = .next t) : t.Inv := by
  rcases complete_cases c s with ⟨i, hd, he⟩ | ⟨r, -, he⟩ <;> rw [he] at hc <;> cases hc
  · exact finish_perform_inv (wellFormed_of_decode hd) h
  · exact raise_inv h _

theorem hostTurn_inv {s t : State} (h : s.Inv) (ht : hostTurn s = .next t) : t.Inv := by
  obtain ⟨-, -, hb, hl, he, hc⟩ := hostTurn_frame ht
  exact inv_congr h hb hl he hc

/-- Settles O18. -/
theorem invariantHoldsAtReset : Obligations.InvariantHoldsAtReset := reset_inv

/-- Settles O19: a reset gives the reset values, a completion keeps the invariant command by command, and a turn of the
host does not reach the registers it speaks of. -/
theorem invariantKeptByEveryStep : Obligations.InvariantKeptByEveryStep := by
  unfold Obligations.InvariantKeptByEveryStep
  intro s t h hs
  have hpop : s.popEvent.Inv := inv_congr h rfl rfl rfl rfl
  rcases step_cases hs with ⟨-, ht⟩ | ⟨-, ht⟩ | ⟨-, -, ⟨c, -, -, hc⟩ | ⟨c, k, -, -, hc⟩ | ⟨-, hc⟩⟩
  · rw [ht]
    exact inv_congr reset_inv rfl rfl rfl rfl
  · rw [ht]
    exact inv_congr h rfl rfl rfl rfl
  · exact complete_inv hpop hc
  · exact hostTurn_inv (s := { s.popEvent with wait := k }) (inv_congr h rfl rfl rfl rfl) hc
  · exact hostTurn_inv hpop hc

end Sys2Proof.Machine
end

section
/-! Who changes which register in a step without reset (spec/10_state.md R42, spec/60_exceptions.md R172). -/
namespace Sys2Proof.Machine

/-- Settles O8, by the three kinds of a step without reset; a completion by the frame of its command. -/
theorem onlyItsWritersChangeARegister : Obligations.OnlyItsWritersChangeARegister := by
  unfold Obligations.OnlyItsWritersChangeARegister
  intro s t hr h
  rcases step_cases_of_not_reset hr h with ⟨c, hd, hc⟩ | ⟨hw, r, w, ht⟩ | ht
  · have hdue : ∃ c, s.Due c := ⟨c, hd⟩
    rcases complete_cases c s.popEvent with ⟨i, hi, -⟩ | ⟨-, -, he⟩
    · have hcomp : s.Completes i := ⟨c, hd, hi⟩
      rw [complete_ok hi] at hc
      cases i with
      | nop | sm3Init | sm3Sum | sm3Compress | ptDecode =>
        rw [show t = _ from exec_frame hc]
        simp [hdue, hcomp]
      | sm3Write nb =>
        have hwrite : ∃ nb, s.Completes (.sm3Write nb) := ⟨nb, hcomp⟩
        rw [show t = _ from exec_frame hc]
        simp [hdue, hwrite]
      | ptEncode mode =>
        have hencode : ∃ mode, s.Completes (.ptEncode mode) := ⟨mode, hcomp⟩
        rw [show t = _ from exec_frame hc]
        simp [hdue, hencode]
    · rw [he] at hc
      cases hc
      simp [hdue]
  · rw [ht, writeReg_frame]
    simp [hw]
  · rw [ht]
    simp

end Sys2Proof.Machine
end

section
/-! The steps within the LATENCY of a pending command (spec/10_state.md R37, spec/20_memory.md R57). -/
namespace Sys2Proof.Machine

/-- One step of a host's turn within the LATENCY of the pending command (10_state.md R37). -/
theorem step_within_latency {s t : State} {c : Word} {k : Nat} (hp : s.pending = some c) (hw : s.wait = k + 1)
    (hl : s.powerLost = false) (he : ∀ e ∈ s.env, e = EnvEvent.quiet) (h : step s = .next t) :
    t = { s with berr := t.berr, wait := k, draws := t.draws, env := s.env.tail, host := t.host } := by
  rw [step_waiting hp hw (nextEvent_quiet he) hl] at h
  exact hostTurn_busy (s := { s.popEvent with wait := k }) ((busy_iff _).2 ⟨c, hp⟩) h

/-- Several of them: only LATENCY and the outside events are counted down. -/
theorem steps_within_latency (n : Nat) {s t : State} {c : Word} (h : steps n s = .next t) (hp : s.pending = some c)
    (hn : n ≤ s.wait) (hl : s.powerLost = false) (he : ∀ e ∈ s.env, e = EnvEvent.quiet) :
    t = { s with berr := t.berr, wait := s.wait - n, draws := t.draws, env := s.env.drop n, host := t.host } := by
  induction n generalizing s with
  | zero =>
    cases h
    rfl
  | succ n ih =>
    obtain ⟨u, hu, ht⟩ := andThen_eq_next h
    obtain ⟨k, hk⟩ : ∃ k, s.wait = k + 1 := ⟨s.wait - 1, by omega⟩
    have hstep := step_within_latency hp hk hl he hu
    generalize u.berr = b, u.draws = d, u.host = a at hstep
    subst hstep
    rw [ih ht hp (by dsimp only; omega) hl (fun e hm => he e (List.mem_of_mem_tail hm)), hk]
    simp

/-- Settles O10, by induction on the number of steps. -/
theorem pendingCommandKeepsTheRegisters : Obligations.PendingCommandKeepsTheRegisters := by
  unfold Obligations.PendingCommandKeepsTheRegisters
  exact fun n _ _ _ hp hn hl he h => steps_within_latency n h hp hn hl he

end Sys2Proof.Machine
end

section
/-! BERR over every step (spec/10_state.md R34, spec/60_exceptions.md R173). -/
namespace Sys2Proof.Machine

/-- What a step does to BERR, and in which steps: a reset clears it, the turn of a host at the busy engine sets it by a
bus write, an acceptance clears it, every other step keeps it. -/
theorem step_berr {s t : State} (h : step s = .next t) :
    (s.nextEvent.isReset = true ∧ t.berr = false) ∨
    (s.nextEvent.isReset = false ∧ t.berr = s.berr) ∨
    (s.nextEvent = .quiet ∧ s.busy = true ∧ s.wait ≠ 0 ∧ t.berr = (s.berr || s.host.nextOp.any isBusWrite)) ∨
    (s.pending = none ∧ s.HostWrites ∧ t.berr = false ∧ t.busy = true) := by
  rcases step_cases h with ⟨he, ht⟩ | ⟨he, ht⟩ | ⟨he, -, ⟨c, -, -, hc⟩ | ⟨c, k, hp, hw, hc⟩ | ⟨hp, hc⟩⟩
  · exact .inl ⟨he, by rw [ht]; rfl⟩
  · exact .inr (.inl ⟨by rw [he]; rfl, by rw [ht]; rfl⟩)
  · exact .inr (.inl ⟨by rw [he]; rfl, complete_berr (s := s.popEvent) hc⟩)
  · have hb : s.busy = true := (busy_iff s).2 ⟨c, hp⟩
    exact .inr (.inr (.inl ⟨he, hb, by omega, hostTurn_busy_berr (s := { s.popEvent with wait := k }) hb hc⟩))
  · have hb : s.popEvent.busy = false := (not_busy_iff _).2 hp
    rcases hostTurn_idle_cases hb hc with ⟨hw, r, w, ht⟩ | ⟨d, ht⟩
    · rcases writeReg_berr r w s.popEvent with hk | ⟨hk, hy⟩
      · exact .inr (.inl ⟨by rw [he]; rfl, by rw [ht]; exact hk⟩)
      · exact .inr (.inr (.inr ⟨hp, hw, by rw [ht]; exact hk, by rw [ht]; exact hy⟩))
    · exact .inr (.inl ⟨by rw [he]; rfl, by rw [ht]; rfl⟩)

/-- Settles O13, by the four things a step can do to BERR. -/
theorem berrIsSetByDroppedWritesOnly : Obligations.BerrIsSetByDroppedWritesOnly := by
  unfold Obligations.BerrIsSetByDroppedWritesOnly
  refine ⟨fun s t h => ?_, fun s t op hb hop h => ?_⟩
  · rcases step_berr h with ⟨he, ht⟩ | ⟨he, ht⟩ | ⟨he, hb, hw, ht⟩ | ⟨hp, hw, ht, hy⟩
    · refine ⟨fun _ h1 => by simp [ht] at h1, fun _ _ => .inl he, fun c hd => ?_⟩
      rw [hd.event_eq] at he
      cases he
    · exact ⟨fun h0 h1 => by simp [ht, h0] at h1, fun h0 h1 => by simp [ht, h0] at h1, fun _ _ => ht⟩
    · refine ⟨fun h0 h1 => ⟨he, hb, hw, ?_⟩, fun h0 h1 => by simp [ht, h0] at h1, fun c hd => absurd hd.wait_eq hw⟩
      simpa [ht, h0, Option.any_eq_true] using h1
    · refine ⟨fun _ h1 => by simp [ht] at h1, fun _ _ => .inr ⟨hp, hw, hy⟩, fun c hd => ?_⟩
      rw [hd.pending_eq] at hp
      cases hp
  · rw [hostTurn_busy_berr hb h, hop]
    rfl

end Sys2Proof.Machine
end

section
/-! PKLEN and the lengths of the point codec (spec/10_state.md R38, spec/41_sm2_point.md R126, R127). -/
namespace Sys2Proof.Machine

/-- PT_DECODE succeeds only with an encoding that is accepted (R126). -/
theorem ptDecode_succeeds {s t : State} (h : exec .ptDecode s = .next t) (he : t.err = false) :
    ∃ q, decodePoint s.pklen.toNat s.pkb = .ok q := by
  cases hd : decodePoint s.pklen.toNat s.pkb with
  | ok q => exact ⟨q, rfl⟩
  | error e =>
    rw [exec_next h, perform_ptDecode_error hd] at he
    cases he

/-- The length of an accepted encoding fits its first byte (R126). -/
theorem ptDecode_length {s t : State} (h : exec .ptDecode s = .next t) (he : t.err = false) :
    (s.pklen = 33 ∧ s.pkb.getD 0 0 ∈ [(0x02 : Byte), 0x03])
      ∨ (s.pklen = 65 ∧ s.pkb.getD 0 0 ∈ [(0x04 : Byte), 0x06, 0x07]) := by
  obtain ⟨⟨x, y⟩, hd⟩ := ptDecode_succeeds h he
  obtain ⟨⟨hl, hp, -⟩ | ⟨hl, hp, -⟩, -⟩ := decodePoint_ok hd
  · refine .inl ⟨BitVec.eq_of_toNat_eq hl, ?_⟩
    simpa [← BitVec.toNat_inj] using hp
  · refine .inr ⟨BitVec.eq_of_toNat_eq hl, ?_⟩
    simpa [← BitVec.toNat_inj] using hp

/-- PT_ENCODE writes one of the two lengths (R127). -/
theorem ptEncode_length {s t : State} {mode : EncMode} (h : exec (.ptEncode mode) s = .next t) :
    t.pklen = 33 ∨ t.pklen = 65 := by
  have hk : t.pklen = BitVec.ofNat 7 (encodePoint mode (coordValue s.px) (coordValue s.py)).length := by
    rw [exec_next h, perform_ptEncode]
    rfl
  rw [encodePoint_length] at hk
  cases mode with
  | compress => exact .inl hk
  | nocompress | mix => exact .inr hk

/-- A read of PKLEN is zero-extended (R38). -/
theorem readReg_pklen_toNat (s : State) : (readReg .pklen s).toNat = s.pklen.toNat := by
  have := s.pklen.isLt
  simp only [readReg, BitVec.truncate_eq_setWidth, BitVec.toNat_setWidth]
  omega

/-- A write to PKLEN stores its low seven bits (R38, R53). -/
theorem memWrite_pklen {s : State} (hb : s.busy = false) (w : Word) :
    memWrite .pklen w s = { s with pklen := w.extractLsb' 0 7 } := by
  rw [memWrite_idle hb]; rfl

/-- Settles O30: the field by the value of its seven bits, the lengths by the codec's own. -/
theorem pklenField : Obligations.PklenField := by
  unfold Obligations.PklenField
  refine ⟨rfl, rfl, fun s n hb hn => ?_, fun s => ⟨?_, ?_⟩, fun s w w' hb hw => ?_, fun _ _ => ptDecode_length,
    fun _ _ _ => ptEncode_length⟩
  · rw [memWrite_pklen hb, extract_toNat, BitVec.toNat_ofNat]
    omega
  · have := s.pklen.isLt
    apply BitVec.eq_of_toNat_eq
    rw [extract_toNat, readReg_pklen_toNat, BitVec.ofNat_eq_ofNat, BitVec.toNat_zero]
    omega
  · have := s.pklen.isLt
    apply BitVec.eq_of_toNat_eq
    rw [extract_toNat, readReg_pklen_toNat]
    omega
  · rw [memWrite_pklen hb, memWrite_pklen hb, hw]

end Sys2Proof.Machine
end

section
/-! The stream of a message through the commands (spec/10_state.md R43, spec/40_sm3.md R93 to R96). -/
namespace Sys2Proof.Machine

/-- A successful SM3_WRITE appends its bytes to the message (R95). -/
theorem sm3Write_stream {m : List Byte} {s t : State} {nb : Nat} (hnb : nb ≤ 4) (hs : StreamOf m s)
    (h : exec (.sm3Write nb) s = .next t) (he : t.err = false) : StreamOf (m ++ dinBytes s.din nb) t := by
  rw [exec_next h] at he ⊢
  by_cases hc : s.len.toNat + nb ≤ maxLen
  · obtain ⟨hb, hv⟩ := foldl_appendByte_stream (dinBytes s.din nb) m s hs.buf_eq hs.v_eq
    rw [perform_sm3Write_ok hc]
    refine ⟨?_, hb, hv⟩
    rw [finish_ok, succeed_len, len_add_toNat hc, hs.len_eq, List.length_append, dinBytes_length _ _ hnb]
  · rw [perform_sm3Write_error (Nat.lt_of_not_le hc)] at he
    cases he

/-- A failed SM3_WRITE keeps the message (R95). -/
theorem sm3Write_failed_stream {m : List Byte} {s t : State} {nb : Nat} (hs : StreamOf m s)
    (h : exec (.sm3Write nb) s = .next t) (he : t.err = true) : StreamOf m t := by
  rw [exec_next h] at he ⊢
  by_cases hc : s.len.toNat + nb ≤ maxLen
  · rw [perform_sm3Write_ok hc] at he
    cases he
  · rw [perform_sm3Write_error (Nat.lt_of_not_le hc)]
    exact streamOf_congr hs rfl rfl rfl

/-- NOP and the point codec do not write the stream's registers (R74). -/
theorem exec_keeps_stream {m : List Byte} {s t : State} {i : Instr}
    (hi : i ∈ [Instr.nop, .ptDecode, .ptEncode .nocompress, .ptEncode .compress, .ptEncode .mix])
    (hs : StreamOf m s) (h : exec i s = .next t) : StreamOf m t := by
  cases i with
  | nop | ptDecode | ptEncode _ =>
    rw [show t = _ from exec_frame h]
    exact streamOf_congr hs rfl rfl rfl
  | sm3Init | sm3Write _ | sm3Sum | sm3Compress => simp at hi

/-- Settles O44, command by command. -/
theorem streamInvariant : Obligations.StreamInvariant := by
  unfold Obligations.StreamInvariant
  refine ⟨streamOf_nil rfl rfl rfl, ?_, fun _ _ _ _ => sm3Write_stream, fun _ _ _ _ => sm3Write_failed_stream,
    fun _ _ _ _ => exec_keeps_stream, fun m s t hs h => ?_⟩
  · rintro s t (h | h) <;> rw [exec_next h]
    · rw [perform_sm3Init]
      exact streamOf_nil rfl rfl rfl
    · rw [perform_sm3Sum]
      exact streamOf_nil rfl rfl rfl
  · rw [exec_next h, perform_sm3Sum]
    exact cfTail_stream hs

end Sys2Proof.Machine
end

section
/-! ID and the fields of STATUS (spec/10_state.md R27, R31, R35). -/
namespace Sys2Proof.Machine

/-- ID reads its constant, busy or not (R27). -/
theorem memRead_id (s : State) : memRead .id s = (idValue, s) := by
  unfold memRead
  split <;> rfl

/-- Settles O20. -/
theorem idIsHardwired : Obligations.IdIsHardwired := by
  unfold Obligations.IdIsHardwired
  intro s w
  exact ⟨rfl, memRead_id s, fun hb => memWrite_idle hb .id w, by rw [memRead_id]; rfl, rfl⟩

/-- Settles O27: the six bits of BUFCNT hold |BUF| < 64. -/
theorem statusLayout : Obligations.StatusLayout := by
  unfold Obligations.StatusLayout
  intro s hb hlen
  have hcnt : s.bufcnt.toNat = s.buf.length := by
    rw [State.bufcnt, BitVec.toNat_ofNat, Nat.mod_eq_of_lt hlen]
  exact ⟨(statusFields_busy ..).trans hb, statusFields_err .., statusFields_berr .., statusFields_bit3 ..,
    statusFields_errcode .., (congrArg BitVec.toNat (statusFields_bufcnt ..)).trans hcnt, statusFields_reserved ..⟩

end Sys2Proof.Machine
end

section
/-! The register map (spec/20_memory.md R51): which offsets name which register. -/
namespace Sys2Proof.Machine

/-- The aligned offsets the map does not name (R55). -/
theorem regAt_eq_reserved_iff {off : Nat} (ha : off % 4 = 0) :
    regAt off = .reserved ↔ off = 0x01C ∨ (0x060 ≤ off ∧ off < 0x080) ∨ 0x144 ≤ off := by
  fun_cases regAt off <;> simp only [reduceCtorEq, true_iff, false_iff] <;> omega

/-- An aligned offset that is not reserved is the offset of its register: the map is one-to-one there. -/
theorem regOffset_regAt {off : Nat} (ha : off % 4 = 0) (h : regAt off ≠ .reserved) : regOffset (regAt off) = off := by
  rw [ne_eq, regAt_eq_reserved_iff ha] at h
  fun_cases regAt off <;> simp only [regOffset] <;> omega

/-- Two aligned offsets have two registers, or one of the two is reserved. -/
theorem regAt_ne {off off' : Nat} (ha : off % 4 = 0) (ha' : off' % 4 = 0) (hne : off' ≠ off)
    (h : regAt off ≠ .reserved) : regAt off' ≠ regAt off := by
  intro he
  have hoff' := regOffset_regAt ha' (he ▸ h)
  rw [he, regOffset_regAt ha h] at hoff'
  exact hne hoff'.symm

/-- CMD is at one offset alone. -/
theorem regAt_ne_cmd {off : Nat} (ha : off % 4 = 0) (hne : off ≠ 0x004) : regAt off ≠ .cmd :=
  regAt_ne (off := 0x004) rfl ha hne nofun

end Sys2Proof.Machine
end

section
/-! Reads and writes of the idle engine (spec/20_memory.md R52, R53, R55, R56, R59). -/
namespace Sys2Proof.Machine

/-- A read of PKLEN is its seven bits with zeros above them (R52). -/
theorem readReg_pklen (s : State) : readReg .pklen s = 0#25 ++ s.pklen := by
  apply BitVec.eq_of_toNat_eq
  rw [readReg_pklen_toNat, toNat_append_eq, BitVec.toNat_zero, Nat.zero_mul, Nat.zero_add]

/-- The read of the idle engine at the offset of a register. -/
theorem memRead_regOffset {s : State} (hb : s.busy = false) (r : Reg) :
    memRead (regAt (regOffset r)) s = (readReg r s, s) := by
  rw [regAt_regOffset, memRead_idle hb]

/-- A write to a read-only register of the map is ignored (R55). -/
theorem writeReg_readOnly {r : Reg} (w : Word) (s : State)
    (h : regOffset r = 0x000 ∨ regOffset r = 0x008 ∨ regOffset r = 0x010 ∨ regOffset r = 0x014
      ∨ (0x020 ≤ regOffset r ∧ regOffset r ≤ 0x05C)) : writeReg r w s = s := by
  cases r with
  | id | status | lenLo | lenHi | v _ | digest _ | reserved => rfl
  | cmd | din | pklen | blk _ | px _ | py _ | pk _ =>
    simp only [regOffset] at h
    omega

/-- A full-width read/write register holds the word last written (R53). -/
theorem readReg_writeReg_same {r : Reg} (w : Word) (s : State)
    (h : regOffset r = 0x00C ∨ (0x080 ≤ regOffset r ∧ regOffset r < 0x144)) : readReg r (writeReg r w s) = w := by
  cases r with
  | din => rfl
  | blk _ | px _ | py _ | pk _ => simp [readReg, writeReg]
  | id | cmd | status | lenLo | lenHi | pklen | v _ | digest _ | reserved =>
    simp only [regOffset] at h
    omega

/-- PKLEN holds the low seven bits of the word last written (R38, R53). -/
theorem readReg_writeReg_pklen (w : Word) (s : State) : readReg .pklen (writeReg .pklen w s) = w &&& 0x7F := by
  apply BitVec.eq_of_toNat_eq
  rw [readReg_pklen_toNat, writeReg, extract_toNat, BitVec.toNat_and, Nat.pow_zero, Nat.div_one]
  exact (Nat.and_two_pow_sub_one_eq_mod w.toNat 7).symm

/-- A write that is no acceptance leaves the read of every other register (R53, R59). -/
theorem readReg_writeReg_ne {r r' : Reg} (w : Word) (s : State) (hr : r ≠ .cmd) (hne : r' ≠ r) :
    readReg r' (writeReg r w s) = readReg r' s := by
  cases r with
  | cmd => exact absurd rfl hr
  | id | status | lenLo | lenHi | v _ | digest _ | reserved => rfl
  | din =>
    cases r' with
    | din => exact absurd rfl hne
    | _ => rfl
  | pklen =>
    cases r' with
    | pklen => exact absurd rfl hne
    | _ => rfl
  | blk i =>
    cases r' with
    | blk j => exact Vector.getElem_set_ne i.isLt j.isLt fun e => hne (congrArg Reg.blk (Fin.ext e.symm))
    | _ => rfl
  | px i =>
    cases r' with
    | px j => exact Vector.getElem_set_ne i.isLt j.isLt fun e => hne (congrArg Reg.px (Fin.ext e.symm))
    | _ => rfl
  | py i =>
    cases r' with
    | py j => exact Vector.getElem_set_ne i.isLt j.isLt fun e => hne (congrArg Reg.py (Fin.ext e.symm))
    | _ => rfl
  | pk i =>
    cases r' with
    | pk j => exact Vector.getElem_set_ne i.isLt j.isLt fun e => hne (congrArg Reg.pk (Fin.ext e.symm))
    | _ => rfl

/-- No write reaches BUF (R59). -/
theorem writeReg_buf (r : Reg) (w : Word) (s : State) : (writeReg r w s).buf = s.buf := by
  rw [writeReg_frame]

/-- A write that is no acceptance leaves PENDING (R59). -/
theorem writeReg_pending {r : Reg} (w : Word) (s : State) (hr : r ≠ .cmd) : (writeReg r w s).pending = s.pending := by
  cases r with
  | cmd => exact absurd rfl hr
  | _ => rfl

theorem writeReg_busy {r : Reg} (w : Word) (s : State) (hr : r ≠ .cmd) : (writeReg r w s).busy = s.busy := by
  rw [State.busy, State.busy, writeReg_pending w s hr]

/-- Settles O21: the map gives each register at its offset, and the idle engine reads it. -/
theorem registerMapReads : Obligations.RegisterMapReads := by
  unfold Obligations.RegisterMapReads
  intro s hb
  have hread := memRead_regOffset hb
  exact ⟨hread .id, hread .cmd, hread .status, hread .din, hread .lenLo, hread .lenHi,
    (hread .pklen).trans (by rw [readReg_pklen]),
    fun i => ⟨hread (.v i), hread (.digest i), hread (.px i), hread (.py i)⟩, fun i => hread (.blk i),
    fun i => hread (.pk i)⟩

/-- Settles O22: those offsets are reserved, and these are the read-only registers'. -/
theorem reservedAndReadOnlyIgnoreWrites : Obligations.ReservedAndReadOnlyIgnoreWrites := by
  unfold Obligations.ReservedAndReadOnlyIgnoreWrites
  intro s w off hb ha
  refine ⟨fun h => ?_, fun h => ?_⟩
  · rw [(regAt_eq_reserved_iff ha).2 (by omega), memRead_idle hb, memWrite_idle hb]
    exact ⟨rfl, rfl⟩
  · have hn : regAt off ≠ .reserved := mt (regAt_eq_reserved_iff ha).1 (by omega)
    rw [memWrite_idle hb]
    exact writeReg_readOnly w s (by rwa [regOffset_regAt ha hn])

/-- Settles O23: the register written by its offset, another offset by another register (or a reserved one, which no
write changes). -/
theorem writeThenRead : Obligations.WriteThenRead := by
  unfold Obligations.WriteThenRead
  intro s w off off' hb ha ha' _ _
  refine ⟨fun h => ?_, ?_, fun hc hne => ?_, fun hc => ?_⟩
  · have hn : regAt off ≠ .reserved := mt (regAt_eq_reserved_iff ha).1 (by omega)
    have hoff := regOffset_regAt ha hn
    have hcmd : regAt off ≠ .cmd := regAt_ne_cmd ha (by omega)
    rw [memWrite_idle hb, memRead_idle ((writeReg_busy w s hcmd).trans hb)]
    exact readReg_writeReg_same w s (by rwa [hoff])
  · rw [show regAt 0x018 = .pklen from rfl, memWrite_idle hb,
      memRead_idle ((writeReg_busy w s (r := .pklen) nofun).trans hb)]
    exact readReg_writeReg_pklen w s
  · have hcmd := regAt_ne_cmd ha hc
    rw [memWrite_idle hb, memRead_idle ((writeReg_busy w s hcmd).trans hb), memRead_idle hb]
    by_cases hres : regAt off = .reserved
    · rw [hres]
      rfl
    · rw [readReg_writeReg_ne w s hcmd (regAt_ne ha ha' hne hres)]
  · rw [memWrite_idle hb]
    exact ⟨writeReg_buf _ w s, writeReg_pending w s (regAt_ne_cmd ha hc)⟩

/-- Settles O24: a write to CMD is the acceptance of its word. -/
theorem commandAcceptance : Obligations.CommandAcceptance := by
  unfold Obligations.CommandAcceptance
  intro s c hb
  have haccept : memWrite (regAt 0x004) c s = accept c s := memWrite_idle hb .cmd c
  rw [haccept]
  exact ⟨rfl, rfl⟩

end Sys2Proof.Machine
end

section
/-! Reads and writes of the busy engine (spec/20_memory.md R52, R57, R58). -/
namespace Sys2Proof.Machine

/-- A completion leaves BERR, the model's own counters, the outside events and the host. -/
theorem complete_frame {c : Word} {s t : State} (h : complete c s = .next t) :
    t = { t with berr := s.berr, wait := s.wait, draws := s.draws, env := s.env, host := s.host } :=
  Host.Outcome.next.inj (h.symm.trans (complete_with s.berr s.wait s.draws s.env s.host h))

/-- A completion does not see BERR, and keeps it (R57, 10_state.md R34). -/
theorem complete_with_berr (b : Bool) {c : Word} {s t : State} (h : complete c s = .next t) :
    complete c { s with berr := b } = .next { t with berr := b } :=
  (complete_with b s.wait s.draws s.env s.host h).trans
    (congrArg (fun u : State => Host.Outcome.next { u with berr := b }) (complete_frame h).symm)

/-- A read of STATUS while a command is pending (R52). -/
theorem memRead_status_busy {s : State} (h : s.busy = true) :
    (memRead .status s).1 = s.busyStatus (Config.freeWord s.inst s.draws) := by
  rw [memRead, if_pos h]

/-- Settles O25: the dropped write is BERR alone, which no completion sees. -/
theorem busyWriteIsDropped : Obligations.BusyWriteIsDropped := by
  unfold Obligations.BusyWriteIsDropped
  intro s off w hb
  rw [memWrite_busy hb]
  exact ⟨rfl, fun c t _ h => complete_with_berr true h⟩

/-- Settles O26: STATUS by its fields, every other read by what reads can move. -/
theorem busyReads : Obligations.BusyReads := by
  unfold Obligations.BusyReads
  intro s off hb
  rw [show regAt 0x000 = .id from rfl, show regAt 0x008 = .status from rfl, memRead_id, memRead_status_busy hb]
  refine ⟨rfl, (statusFields_busy ..).trans hb, statusFields_berr .., statusFields_bit3 .., statusFields_reserved ..,
    ?_⟩
  rcases memRead_state (regAt off) s with h | h <;> rw [h]

end Sys2Proof.Machine
end

section
/-! The accesses of the host (spec/20_memory.md R50, R54, R65, spec/30_encoding.md R78). -/
namespace Sys2Proof.Machine

/-- An access of the window that its contract does not cover (R54). -/
theorem access_unsupported {off bytes : Nat} (h : off < 0x400) (hn : bytes ≠ 4 ∨ off % 4 ≠ 0) :
    access off bytes = .unsupported := by
  unfold access Config.windowBytes
  rw [if_neg (by omega), if_neg (by omega)]

/-- Bus address ENGINE_BASE + off reaches window offset off (R50). -/
theorem busAccess_engineBase_add (inst off bytes : Nat) :
    busAccess inst (Config.engineBase inst + off) bytes = access off bytes := by
  rw [busAccess, if_neg (by omega), Nat.add_sub_cancel_left]

/-- A bus address below the window or above it is outside (R50; log 11). -/
theorem busAccess_outside {inst addr : Nat} (bytes : Nat)
    (h : addr < Config.engineBase inst ∨ Config.engineBase inst + 0x400 ≤ addr) :
    busAccess inst addr bytes = .outside := by
  rw [busAccess]
  split
  · rfl
  · exact access_outside bytes (by omega)

theorem engineBase_mod (inst : Nat) : Config.engineBase inst % 0x400 = 0 := Nat.mul_mod_right _ _

/-- Settles O28. -/
theorem otherAccessesAreRefused : Obligations.OtherAccessesAreRefused := by
  unfold Obligations.OtherAccessesAreRefused
  intro s off bytes t v hoff
  refine ⟨fun h => ?_, fun h => ?_⟩
  · rw [hostExec, hostExec, busAccess_engineBase_add, access_unsupported hoff h]
    exact ⟨rfl, rfl⟩
  · rw [hostExec, hostExec, access_unsupported hoff (.inr h)]
    exact ⟨rfl, rfl⟩

/-- Settles O29: the access of each address, and what the host makes of it. -/
theorem busAddressesReachTheWindow : Obligations.BusAddressesReachTheWindow := by
  unfold Obligations.BusAddressesReachTheWindow
  intro s off addr bytes t x w v
  refine ⟨fun hoff ha => ?_, engineBase_mod s.inst, fun _ => ?_, fun h => ?_, fun h => ?_⟩
  · rw [hostExec, hostExec, hostExec, access_reg hoff ha]
    exact ⟨rfl, rfl, rfl⟩
  · rw [hostExec, hostExec, hostExec, hostExec, busAccess_engineBase_add]
    exact ⟨rfl, rfl⟩
  · rw [hostExec, hostExec, busAccess_outside bytes h]
    exact ⟨rfl, rfl⟩
  · rw [hostExec, hostExec, access_outside 4 h]
    exact ⟨rfl, rfl⟩

/-- Settles O7: idle and waiting steps are turns of the host. -/
theorem otherStepsAreTheHostsTurns : Obligations.OtherStepsAreTheHostsTurns := by
  unfold Obligations.OtherStepsAreTheHostsTurns
  intro s he hl
  refine ⟨fun hp => ?_, fun c k hp hw => ?_⟩
  · rw [step_idle hp he hl]
    exact ⟨fun op hop => hostTurn_op hop, fun hop => hostTurn_idle hop⟩
  · rw [step_waiting hp hw he hl]
    exact ⟨fun op hop => hostTurn_op hop, fun hop => hostTurn_idle hop⟩

end Sys2Proof.Machine
end

section
/-! The byte and integer views of the registers (spec/20_memory.md R61, R62, R63). -/
namespace Sys2Proof.Machine

/-- The value of eight words as a sum (R61). -/
theorem coordValue_eq_sum (ws : Vector Word 8) :
    coordValue ws = ((List.finRange 8).map fun i : Fin 8 => ws[i].toNat * 2 ^ (32 * (7 - i.val))).sum := by
  simp only [coordValue, foldl_eight_words (2 ^ 32) ws.toList Vector.length_toList, Nat.pow_mul]
  rfl

/-- Settles O31: each view is the words' bytes in order. -/
theorem registerByteOrder : Obligations.RegisterByteOrder := by
  unfold Obligations.RegisterByteOrder
  intro s
  refine ⟨fun ws _ => ⟨coordValue_eq_sum ws, fun i k => ?_⟩, unpackWords_length s.pk, unpackWords_getElem? s.pk,
    unpackWords_length s.digest, unpackWords_getElem? s.digest⟩
  rw [natToBytes_coordValue]
  exact unpackWords_getElem? ws i k

end Sys2Proof.Machine
end

section
/-! The pieces of a message, written one after the other (spec/20_memory.md R60, spec/40_sm3.md R95, R98). -/
namespace Sys2Proof.Machine

/-- The word of an SM3_WRITE of 1 to 4 bytes decodes to it (R72). -/
theorem decode_encode_sm3Write {nb : Nat} (h1 : 1 ≤ nb) (h4 : nb ≤ 4) :
    decode (encode (.sm3Write nb)) = .ok (.sm3Write nb) := by
  interval_cases nb <;> decide

/-- A piece written to the idle engine within MAX_LEN goes through the loop of SM3_WRITE byte by byte; the command is
over, without an error, and the engine idle again. -/
theorem writePiece_eq {p : Piece} {s : State} (h1 : 1 ≤ p.1.length) (h4 : p.1.length ≤ 4) (hb : s.busy = false)
    (hl : s.len.toNat + p.1.length ≤ maxLen) :
    writePiece p s =
      .next { s with din := dinOf p.1 p.2
                     v := (p.1.foldl appendByte s).v
                     buf := (p.1.foldl appendByte s).buf
                     len := s.len + BitVec.ofNat 64 p.1.length
                     err := false, errcode := 0, pending := none, berr := false
                     wait := Config.latency s.inst s.draws
                     draws := s.draws + 1 } := by
  have hidle : ({ s with din := dinOf p.1 p.2 } : State).busy = false := hb
  obtain ⟨hv, hbuf⟩ := foldl_appendByte_congr p.1
    (s := accept (encode (.sm3Write p.1.length)) { s with din := dinOf p.1 p.2 }) (t := s) rfl rfl
  rw [writePiece, memWrite_idle hb, writeReg, issue_eq (decode_encode_sm3Write h1 h4) hidle,
    perform_sm3Write_ok (by exact hl), accept_din, dinBytes_dinOf _ _ h4, hv, hbuf]
  rfl

/-- What a piece so written does to the stream. -/
theorem writePiece_next {p : Piece} {s : State} (h1 : 1 ≤ p.1.length) (h4 : p.1.length ≤ 4) (hb : s.busy = false)
    (hl : s.len.toNat + p.1.length ≤ maxLen) :
    ∃ t, writePiece p s = .next t ∧ t.busy = false ∧ t.len.toNat = s.len.toNat + p.1.length
      ∧ t.v = (p.1.foldl appendByte s).v ∧ t.buf = (p.1.foldl appendByte s).buf :=
  ⟨_, writePiece_eq h1 h4 hb hl, rfl, len_add_toNat hl, rfl, rfl⟩

/-- The pieces of a message, written in order: V and BUF are those of the loop over the whole message. -/
theorem writePieces_next {pieces : List Piece} {s : State} (hok : PiecesOk pieces) (hb : s.busy = false)
    (hl : s.len.toNat + (message pieces).length ≤ maxLen) :
    ∃ t, writePieces pieces s = .next t ∧ t.busy = false ∧ t.len.toNat = s.len.toNat + (message pieces).length
      ∧ t.v = ((message pieces).foldl appendByte s).v ∧ t.buf = ((message pieces).foldl appendByte s).buf := by
  induction pieces generalizing s with
  | nil => exact ⟨s, rfl, hb, rfl, rfl, rfl⟩
  | cons p ps ih =>
    have hm : message (p :: ps) = p.1 ++ message ps := List.flatMap_cons
    rw [hm, List.length_append] at hl
    obtain ⟨h1, h4⟩ := hok p List.mem_cons_self
    obtain ⟨u, hu, hub, hulen, huv, hubuf⟩ := writePiece_next h1 h4 hb (by omega)
    obtain ⟨t, ht, htb, htlen, htv, htbuf⟩ := ih (fun q hq => hok q (List.mem_cons_of_mem p hq)) hub (by omega)
    obtain ⟨hv, hbuf⟩ := foldl_appendByte_congr (message ps) huv hubuf
    refine ⟨t, by rw [writePieces, hu, andThen_next, ht], htb, ?_, ?_, ?_⟩
    · rw [htlen, hulen, hm, List.length_append, Nat.add_assoc]
    · rw [htv, hv, hm, List.foldl_append]
    · rw [htbuf, hbuf, hm, List.foldl_append]

/-- The pieces of four bytes that are the words of a block (R60). -/
theorem message_wordPieces (ws : List Word) : message (ws.map fun w => (wordBytes w, 0)) = ws.flatMap wordBytes := by
  rw [message, List.flatMap_map]

theorem wordPieces_ok (ws : List Word) : PiecesOk (ws.map fun w => (wordBytes w, 0)) := by
  intro p hp
  obtain ⟨w, -, rfl⟩ := List.mem_map.1 hp
  exact ⟨by simp, by simp⟩

/-- The compression of the bytes of sixteen words is that of the words (R86). -/
theorem cf_unpackWords (v : Vector Word 8) (ws : Vector Word 16) : cf v (unpackWords ws) = compressWords v ws := by
  rw [cf, parseBlock, packWords_unpackWords]

/-- Settles O46: the sixteen words are a message of 64 bytes, which fill the empty buffer exactly. -/
theorem sixteenWordsAreTheBlock : Obligations.SixteenWordsAreTheBlock := by
  unfold Obligations.SixteenWordsAreTheBlock
  intro s t ws hb hbuf hl h
  have hm : message (ws.toList.map fun w => (wordBytes w, 0)) = unpackWords ws := message_wordPieces ws.toList
  have hlen : (unpackWords ws).length = 64 := unpackWords_length ws
  have hfill : (unpackWords ws).foldl appendByte s = { s with v := compressWords s.v ws, buf := [] } := by
    rw [foldl_appendByte_fill _ _ (List.ne_nil_of_length_pos (by omega)) (by rw [hbuf, hlen]; rfl), hbuf,
      List.nil_append, cf_unpackWords]
  obtain ⟨t', ht', -, htlen, htv, htbuf⟩ :=
    writePieces_next (wordPieces_ok ws.toList) hb (by rw [hm, hlen]; exact hl)
  cases h.symm.trans ht'
  rw [hm, hfill] at htv htbuf
  exact ⟨htbuf, by rw [htlen, hm, hlen], _, exec_eq _ _, htv⟩

end Sys2Proof.Machine
end

section
/-! The command words: the fields of R70 make up the word, the decoder inverts the encoder on exactly the twelve legal
words, and it rejects a word exactly under the six conditions of R75 (spec/30_encoding.md sections 1 to 3). -/
namespace Sys2Proof.Machine

/-- The value of a command word, its fields in their places (R70). -/
theorem commandWord_toNat (op : BitVec 8) (nbm1 mode : BitVec 2) :
    (commandWord op nbm1 mode).toNat = mode.toNat * 2 ^ 12 + nbm1.toNat * 2 ^ 8 + op.toNat := by
  rw [commandWord, toNat_append_eq (0#18 ++ mode ++ 0#2 ++ nbm1), toNat_append_eq (0#18 ++ mode ++ 0#2),
    toNat_append_eq (0#18 ++ mode), toNat_append_eq 0#18]
  simp only [BitVec.toNat_ofNat]
  omega

/-- A word whose reserved bits are 0 is put together from its other three fields (R70). -/
theorem commandWord_fields {c : Word} (hhigh : Field.reservedHigh c = 0) (hlow : Field.reservedLow c = 0) :
    commandWord (Field.op c) (Field.nbm1 c) (Field.mode c) = c := by
  have hhigh : (Field.reservedHigh c).toNat = 0 := congrArg BitVec.toNat hhigh
  have hlow : (Field.reservedLow c).toNat = 0 := congrArg BitVec.toNat hlow
  have hlt := c.isLt
  apply BitVec.eq_of_toNat_eq
  rw [commandWord_toNat, Field.op, Field.nbm1, Field.mode]
  rw [Field.reservedHigh] at hhigh
  rw [Field.reservedLow] at hlow
  simp only [extract_toNat] at hhigh hlow ⊢
  omega

/-- The MODE field is the encoding of the mode it selects (R73). -/
theorem encodeMode_of_decodeMode {m : BitVec 2} {mode : EncMode} (h : decodeMode m = .ok mode) :
    encodeMode mode = m := by
  unfold decodeMode at h
  split_ifs at h with h0 h1 h2
  · cases h; exact h0.symm
  · cases h; exact h1.symm
  · cases h; exact h2.symm

/-- The one MODE that selects nothing (R73). -/
theorem decodeMode_error_iff (m : BitVec 2) : (∃ r, decodeMode m = .error r) ↔ m = 3 := by
  unfold decodeMode
  split_ifs with h0 h1 h2
  · simp [h0]
  · simp [h1]
  · simp [h2]
  · exact iff_of_true ⟨_, rfl⟩ (by bv_omega)

/-- The first three checks of R76: no reserved bit, and NBM1 and MODE are 0 but where a command has them. -/
structure FieldsOk (c : Word) : Prop where
  high : Field.reservedHigh c = 0
  low : Field.reservedLow c = 0
  nbm1 : Field.op c ≠ 0x02 → Field.nbm1 c = 0
  mode : Field.op c ≠ 0x11 → Field.mode c = 0

/-- The rest of R76, which looks at the three fields alone (`decode_of_fieldsOk`). -/
def decodeOp (op : BitVec 8) (nbm1 mode : BitVec 2) : Except IllegalReason Instr :=
  if op = 0x00 then .ok .nop
  else if op = 0x01 then .ok .sm3Init
  else if op = 0x02 then .ok (.sm3Write (nbm1.toNat + 1))
  else if op = 0x03 then .ok .sm3Sum
  else if op = 0x04 then .ok .sm3Compress
  else if op = 0x10 then .ok .ptDecode
  else if op = 0x11 then (decodeMode mode).map .ptEncode
  else .error .unknownOp

theorem decode_of_fieldsOk {c : Word} (h : FieldsOk c) :
    decode c = decodeOp (Field.op c) (Field.nbm1 c) (Field.mode c) := by
  rw [decode, if_neg (by simp [h.high, h.low]), if_neg (fun hn => hn.2 (h.nbm1 hn.1)),
    if_neg (fun hn => hn.2 (h.mode hn.1)), decodeOp]

theorem decode_of_not_fieldsOk {c : Word} (h : ¬ FieldsOk c) : ∃ r, decode c = .error r := by
  by_cases hres : Field.reservedHigh c ≠ 0 ∨ Field.reservedLow c ≠ 0
  · exact ⟨_, if_pos hres⟩
  by_cases hnb : Field.op c ≠ 0x02 ∧ Field.nbm1 c ≠ 0
  · exact ⟨_, by rw [decode, if_neg hres, if_pos hnb]⟩
  by_cases hmode : Field.op c ≠ 0x11 ∧ Field.mode c ≠ 0
  · exact ⟨_, by rw [decode, if_neg hres, if_neg hnb, if_pos hmode]⟩
  rw [not_or, not_not, not_not] at hres
  exact absurd ⟨hres.1, hres.2, not_and_not_right.1 hnb, not_and_not_right.1 hmode⟩ h

theorem fieldsOk_of_decode {c : Word} {i : Instr} (h : decode c = .ok i) : FieldsOk c := by
  by_contra hc
  obtain ⟨r, hr⟩ := decode_of_not_fieldsOk hc
  cases h.symm.trans hr

/-- The command the dispatch finds is encoded by the fields it was found from. -/
theorem encode_of_decodeOp {op : BitVec 8} {nbm1 mode : BitVec 2} {i : Instr} (h : decodeOp op nbm1 mode = .ok i)
    (hnb : op ≠ 0x02 → nbm1 = 0) (hmode : op ≠ 0x11 → mode = 0) : encode i = commandWord op nbm1 mode := by
  unfold decodeOp at h
  split_ifs at h <;> subst op
  on_goal 7 => -- PT_ENCODE: MODE is read off the mode
    cases hm : decodeMode mode with
    | error r => rw [hm] at h; cases h
    | ok mode =>
      rw [hm] at h
      cases h
      rw [encode, encodeMode_of_decodeMode hm, hnb (by decide)]
  on_goal 3 => -- SM3_WRITE: NBM1 is read off the count
    cases h
    rw [encode, hmode (by decide), Nat.add_sub_cancel, BitVec.ofNat_toNat, BitVec.setWidth_eq]
  all_goals -- the commands without an operand
    cases h
    rw [encode, hnb (by decide), hmode (by decide)]

/-- The dispatch rejects an OP of no command and the reserved MODE of PT_ENCODE. -/
theorem decodeOp_error_iff (op : BitVec 8) (nbm1 mode : BitVec 2) :
    (∃ r, decodeOp op nbm1 mode = .error r) ↔
      op ∉ [(0x00 : BitVec 8), 0x01, 0x02, 0x03, 0x04, 0x10, 0x11] ∨ (op = 0x11 ∧ mode = 3) := by
  unfold decodeOp
  split_ifs
  on_goal 8 => -- no command has this OP
    exact iff_of_true ⟨_, rfl⟩ (.inl (by simp_all))
  all_goals subst op
  on_goal 7 => -- PT_ENCODE: MODE decides
    rw [← decodeMode_error_iff]
    cases decodeMode mode <;> simp [Except.map]
  all_goals simp

/-- The encoder gives the word of an accepted command back. -/
theorem encode_of_decode {c : Word} {i : Instr} (h : decode c = .ok i) : encode i = c := by
  have hc := fieldsOk_of_decode h
  rw [decode_of_fieldsOk hc] at h
  rw [encode_of_decodeOp h hc.nbm1 hc.mode, commandWord_fields hc.high hc.low]

/-- The decoder gives the command of an encoding back. -/
theorem decode_of_encode {i : Instr} (hi : i.wellFormed = true) : decode (encode i) = .ok i := by
  cases i with
  | nop | sm3Init | sm3Sum | sm3Compress | ptDecode => decide
  | sm3Write nb =>
    simp only [Instr.wellFormed, Bool.and_eq_true, decide_eq_true_eq] at hi
    exact decode_encode_sm3Write hi.1 hi.2
  | ptEncode mode => cases mode <;> decide

/-- Settles O2, command by command. -/
theorem decodeOfEncodeIsTheInstruction : Obligations.DecodeOfEncodeIsTheInstruction := by
  unfold Obligations.DecodeOfEncodeIsTheInstruction
  exact fun i => decode_of_encode

/-- Settles O3: an accepted word is made of the fields its command is encoded by. -/
theorem encodeOfDecodeIsTheWord : Obligations.EncodeOfDecodeIsTheWord := by
  unfold Obligations.EncodeOfDecodeIsTheWord
  exact fun c i h => ⟨wellFormed_of_decode h, encode_of_decode h⟩

/-- The twelve legal words, each with its command (R76). -/
def legalWords : List (Word × Instr) :=
  [(0x00000000, .nop), (0x00000001, .sm3Init), (0x00000002, .sm3Write 1), (0x00000102, .sm3Write 2),
    (0x00000202, .sm3Write 3), (0x00000302, .sm3Write 4), (0x00000003, .sm3Sum), (0x00000004, .sm3Compress),
    (0x00000010, .ptDecode), (0x00000011, .ptEncode .nocompress), (0x00001011, .ptEncode .compress),
    (0x00002011, .ptEncode .mix)]

theorem encode_mem_legalWords {i : Instr} (hi : i.wellFormed = true) : (encode i, i) ∈ legalWords := by
  cases i with
  | nop | sm3Init | sm3Sum | sm3Compress | ptDecode => decide
  | sm3Write nb =>
    simp only [Instr.wellFormed, Bool.and_eq_true, decide_eq_true_eq] at hi
    obtain ⟨h1, h4⟩ := hi
    interval_cases nb <;> decide
  | ptEncode mode => cases mode <;> decide

theorem decode_of_mem_legalWords : ∀ q ∈ legalWords, decode q.1 = .ok q.2 := by decide

/-- Settles O1: an accepted word is the encoding of its command, and the encodings are the twelve words. -/
theorem decodeAcceptsExactlyTwelveWords : Obligations.DecodeAcceptsExactlyTwelveWords := by
  unfold Obligations.DecodeAcceptsExactlyTwelveWords
  intro c i
  refine ⟨fun h => ?_, decode_of_mem_legalWords (c, i)⟩
  have hmem := encode_mem_legalWords (wellFormed_of_decode h)
  rwa [encode_of_decode h] at hmem

/-- Settles O5, by running the decoder on the eight words. -/
theorem wordsDecodeAsTheTableSays : Obligations.WordsDecodeAsTheTableSays := by
  unfold Obligations.WordsDecodeAsTheTableSays
  decide

/-- How a word fails the first three checks of R76. -/
theorem not_fieldsOk_iff (c : Word) :
    ¬ FieldsOk c ↔
      Field.reservedHigh c ≠ 0 ∨ Field.reservedLow c ≠ 0 ∨ (Field.nbm1 c ≠ 0 ∧ Field.op c ≠ 0x02)
        ∨ (Field.mode c ≠ 0 ∧ Field.op c ≠ 0x11) := by
  have hiff : FieldsOk c ↔ Field.reservedHigh c = 0 ∧ Field.reservedLow c = 0
      ∧ (Field.op c ≠ 0x02 → Field.nbm1 c = 0) ∧ (Field.op c ≠ 0x11 → Field.mode c = 0) :=
    ⟨fun h => ⟨h.high, h.low, h.nbm1, h.mode⟩, fun ⟨hhigh, hlow, hnb, hmode⟩ => ⟨hhigh, hlow, hnb, hmode⟩⟩
  simp only [hiff, not_and_or, Classical.not_imp, and_comm]

/-- Rejected are the words that fail a check on the fields, and those that the dispatch rejects. -/
theorem decode_error_iff (c : Word) :
    (∃ r, decode c = .error r) ↔
      ¬ FieldsOk c ∨ ∃ r, decodeOp (Field.op c) (Field.nbm1 c) (Field.mode c) = .error r := by
  by_cases hc : FieldsOk c
  · rw [decode_of_fieldsOk hc]
    exact (or_iff_right (not_not.2 hc)).symm
  · exact iff_of_true (decode_of_not_fieldsOk hc) (.inl hc)

/-- Settles O4: the checks of the decoder against the six conditions, and the end of a rejected word. -/
theorem illegalWordConditions : Obligations.IllegalWordConditions := by
  unfold Obligations.IllegalWordConditions
  intro c
  refine ⟨?_, fun r s h => ⟨fun hb => ?_, complete_error h s⟩⟩
  · rw [decode_error_iff, not_fieldsOk_iff, decodeOp_error_iff, or_left_comm]
    simp only [or_assoc]
    rfl
  · rw [memWrite_idle hb]
    rfl

end Sys2Proof.Machine
end

section
/-! What a command reads, and what it leaves unchanged (spec/30_encoding.md R74, spec/40_sm3.md R100). -/
namespace Sys2Proof.Machine

/-- Settles O58: the frame by `exec_frame`, PENDING by the end of every command. -/
theorem commandFrames : Obligations.CommandFrames := by
  unfold Obligations.CommandFrames
  intro s t i h
  exact ⟨exec_frame h, by rw [exec_next h, finish_pending]⟩

/-- What a command performs depends on the registers it reads alone: the error, or the values it writes. -/
theorem perform_congr {i : Instr} {s s' : State} (h : AgreeOnReads i s s') :
    (∃ e, perform i s = .error e ∧ perform i s' = .error e) ∨
    (∃ u u', perform i s = .ok u ∧ perform i s' = .ok u' ∧ AgreeOnWrites i u u') := by
  cases i with
  | nop => exact .inr ⟨_, _, perform_nop s, perform_nop s', trivial⟩
  | sm3Init => exact .inr ⟨_, _, perform_sm3Init s, perform_sm3Init s', rfl, rfl, rfl⟩
  | sm3Write nb =>
    obtain ⟨hdin, hbuf, hlen, hv⟩ := h
    by_cases hc : s.len.toNat + nb ≤ maxLen
    · obtain ⟨hv', hbuf'⟩ := foldl_appendByte_congr (dinBytes s.din nb) hv hbuf
      refine .inr ⟨_, _, perform_sm3Write_ok hc, perform_sm3Write_ok (by rwa [← hlen]), ?_, ?_, ?_⟩
      · rw [← hdin]; exact hbuf'
      · rw [← hlen]
      · rw [← hdin]; exact hv'
    · have hc := Nat.lt_of_not_le hc
      exact .inl ⟨_, perform_sm3Write_error hc, perform_sm3Write_error (by rwa [← hlen])⟩
  | sm3Sum =>
    obtain ⟨hbuf, hlen, hv⟩ := h
    refine .inr ⟨_, _, perform_sm3Sum s, perform_sm3Sum s', ?_, rfl, rfl, rfl⟩
    rw [hbuf, hlen, hv]
  | sm3Compress =>
    obtain ⟨hv, hblk⟩ := h
    refine .inr ⟨_, _, perform_sm3Compress s, perform_sm3Compress s', ?_⟩
    rw [AgreeOnWrites, hv, hblk]
  | ptDecode =>
    obtain ⟨hpk, hpklen⟩ := h
    have hpoint : decodePoint s'.pklen.toNat s'.pkb = decodePoint s.pklen.toNat s.pkb := by
      rw [State.pkb, State.pkb, hpk, hpklen]
    cases hd : decodePoint s.pklen.toNat s.pkb with
    | error e => exact .inl ⟨e, perform_ptDecode_error hd, perform_ptDecode_error (hpoint.trans hd)⟩
    | ok q => exact .inr ⟨_, _, perform_ptDecode_ok hd, perform_ptDecode_ok (hpoint.trans hd), rfl, rfl⟩
  | ptEncode mode =>
    obtain ⟨hpx, hpy⟩ := h
    refine .inr ⟨_, _, perform_ptEncode mode s, perform_ptEncode mode s', ?_, ?_⟩
    · rw [hpx, hpy]
    · rw [hpx, hpy]

/-- The end of a command leaves what it wrote. -/
theorem agreeOnWrites_succeed {i : Instr} {u u' : State} (h : AgreeOnWrites i u u') :
    AgreeOnWrites i (succeed u) (succeed u') := by
  cases i with
  | nop | sm3Init | sm3Write _ | sm3Sum | sm3Compress | ptDecode | ptEncode _ => exact h

/-- Settles O59: the two commands raise the same error, or they succeed with the same values. -/
theorem commandReadsOnlyItsOperands : Obligations.CommandReadsOnlyItsOperands := by
  unfold Obligations.CommandReadsOnlyItsOperands
  intro i s s' t t' _ h ht ht'
  rw [exec_next ht, exec_next ht']
  rcases perform_congr h with ⟨e, hs, hs'⟩ | ⟨u, u', hs, hs', hw⟩
  · rw [hs, hs']
    exact ⟨rfl, rfl, nofun⟩
  · rw [hs, hs']
    exact ⟨rfl, rfl, fun _ => agreeOnWrites_succeed hw⟩

end Sys2Proof.Machine
end

section
/-! The host's local operations (spec/30_encoding.md R78). -/
namespace Sys2Proof.Machine

theorem hostExec_bnez_taken {s : State} {t : Fin 8} (l : Nat) (h : s.host.vars[t] ≠ 0) :
    hostExec (.bnez t l) s = hostJump l s := if_pos h

theorem hostExec_bnez_not_taken {s : State} {t : Fin 8} (l : Nat) (h : s.host.vars[t] = 0) :
    hostExec (.bnez t l) s = .next { s with host := s.host.advance } := if_neg (not_not.2 h)

theorem hostExec_beqz_taken {s : State} {t : Fin 8} (l : Nat) (h : s.host.vars[t] = 0) :
    hostExec (.beqz t l) s = hostJump l s := if_pos h

theorem hostExec_beqz_not_taken {s : State} {t : Fin 8} (l : Nat) (h : s.host.vars[t] ≠ 0) :
    hostExec (.beqz t l) s = .next { s with host := s.host.advance } := if_neg h

theorem hostJump_of_findLabel {s : State} {l k : Nat} (h : s.host.findLabel l = some k) :
    hostJump l s = .next { s with host := { s.host with pc := k } } := by
  rw [hostJump, h]

theorem hostJump_undefined {s : State} {l : Nat} (h : s.host.findLabel l = none) :
    hostJump l s = .refused .undefinedLabel := by
  rw [hostJump, h]

/-- Jumps and branches taken all go where `hostJump` goes. -/
theorem hostExec_jumps {s : State} (t : Fin 8) {l : Nat} {o : Host.Outcome State Fault Refusal}
    (h : hostJump l s = o) :
    hostExec (.j l) s = o
      ∧ (s.host.vars[t] ≠ 0 → hostExec (.bnez t l) s = o)
      ∧ (s.host.vars[t] = 0 → hostExec (.beqz t l) s = o) :=
  ⟨h, fun ht => (hostExec_bnez_taken l ht).trans h, fun ht => (hostExec_beqz_taken l ht).trans h⟩

/-- Settles O32: the operations by their equations, the jumps by the line of their label. -/
theorem hostLocalOperations : Obligations.HostLocalOperations := by
  unfold Obligations.HostLocalOperations
  intro s t m w l
  refine ⟨rfl, rfl, rfl, rfl, hostExec_bnez_not_taken l, hostExec_beqz_not_taken l, fun k line hk hl hfirst => ?_,
    fun hnone => ?_⟩
  · exact hostExec_jumps t (hostJump_of_findLabel (findLabel_eq_some hk hl hfirst))
  · exact hostExec_jumps t (hostJump_undefined (findLabel_eq_none hnone))

end Sys2Proof.Machine
end

section
/-! Streaming equals one-shot (spec/40_sm3.md R98): SM3_INIT starts the stream of the empty message, every piece grows
it, and SM3_SUM latches its hash. -/
namespace Sys2Proof.Machine

/-- SM3_INIT issued to the idle engine starts the stream of the empty message (R94). -/
theorem issue_sm3Init_next {s : State} (hb : s.busy = false) :
    ∃ t, issue .sm3Init s = .next t ∧ t.busy = false ∧ StreamOf [] t :=
  ⟨_, issue_eq (decode_of_encode rfl) hb, rfl, streamOf_nil rfl rfl rfl⟩

/-- Pieces written to the idle engine are appended to its message (R95, 10_state.md R43). -/
theorem writePieces_stream {m : List Byte} {pieces : List Piece} {s : State} (hok : PiecesOk pieces)
    (hb : s.busy = false) (hs : StreamOf m s) (hl : m.length + (message pieces).length ≤ maxLen) :
    ∃ t, writePieces pieces s = .next t ∧ t.busy = false ∧ StreamOf (m ++ message pieces) t := by
  rw [← hs.len_eq] at hl
  obtain ⟨t, ht, htb, htlen, htv, htbuf⟩ := writePieces_next hok hb hl
  obtain ⟨hbuf, hv⟩ := foldl_appendByte_stream (message pieces) m s hs.buf_eq hs.v_eq
  exact ⟨t, ht, htb, by rw [htlen, hs.len_eq, List.length_append], htbuf.trans hbuf, htv.trans hv⟩

/-- SM3_SUM issued to the idle engine latches the chaining value after the padded tail (R96). -/
theorem issue_sm3Sum_next {s : State} (hb : s.busy = false) :
    ∃ t, issue .sm3Sum s = .next t ∧ t.digest = cfTail s.v (pad s.buf s.len.toNat) :=
  ⟨_, issue_eq (decode_of_encode rfl) hb, rfl⟩

/-- Settles O43: the stream of the message, by induction over its pieces (`writePieces_next`), then its hash. -/
theorem streamingEqualsOneShot : Obligations.StreamingEqualsOneShot := by
  unfold Obligations.StreamingEqualsOneShot
  intro pieces s hok hl hb
  obtain ⟨a, ha, hab, has⟩ := issue_sm3Init_next hb
  obtain ⟨u, hu, hub, hus⟩ := writePieces_stream hok hab has ((Nat.zero_add _).trans_le hl)
  obtain ⟨t, ht, hdigest⟩ := issue_sm3Sum_next hub
  refine ⟨t, ?_, hdigest.trans (cfTail_stream hus)⟩
  rw [hashPieces, ha, andThen_next, hu, andThen_next, ht]

end Sys2Proof.Machine
end

section
/-! SM3's pure functions (spec/40_sm3.md sections 1 to 4). -/
namespace Sys2Proof.Machine

/-! ## The word functions -/

theorem ff_of_lt {j : Nat} (h : j < 16) (x y z : Word) : ff j x y z = x ^^^ y ^^^ z := if_pos h

theorem gg_of_lt {j : Nat} (h : j < 16) (x y z : Word) : gg j x y z = x ^^^ y ^^^ z := if_pos h

theorem ff_of_le {j : Nat} (h : 16 ≤ j) (x y z : Word) : ff j x y z = (x &&& y) ||| (x &&& z) ||| (y &&& z) :=
  if_neg (Nat.not_lt.2 h)

theorem gg_of_le {j : Nat} (h : 16 ≤ j) (x y z : Word) : gg j x y z = (x &&& y) ||| (~~~x &&& z) :=
  if_neg (Nat.not_lt.2 h)

/-- The second form of FF is the bitwise majority (R82). -/
theorem getLsbD_ff_of_le {j : Nat} (h : 16 ≤ j) (x y z : Word) (b : Nat) :
    (ff j x y z).getLsbD b = Bool.atLeastTwo (x.getLsbD b) (y.getLsbD b) (z.getLsbD b) := by
  rw [ff_of_le h, BitVec.getLsbD_or, BitVec.getLsbD_or, BitVec.getLsbD_and, BitVec.getLsbD_and, BitVec.getLsbD_and]

/-- The second form of GG is the bitwise choice (R83). -/
theorem getLsbD_gg_of_le {j : Nat} (h : 16 ≤ j) (x y z : Word) {b : Nat} (hb : b < 32) :
    (gg j x y z).getLsbD b = if x.getLsbD b then y.getLsbD b else z.getLsbD b := by
  rw [gg_of_le h, BitVec.getLsbD_or, BitVec.getLsbD_and, BitVec.getLsbD_and, BitVec.getLsbD_not, decide_eq_true hb]
  cases x.getLsbD b
  · exact Bool.true_and _
  · exact Bool.or_false _

/-- Settles O34. -/
theorem booleanFunctions : Obligations.BooleanFunctions := by
  unfold Obligations.BooleanFunctions
  intro j x y z _
  exact ⟨fun h => ⟨ff_of_lt h x y z, gg_of_lt h x y z⟩, fun h => ⟨ff_of_le h x y z, gg_of_le h x y z,
    fun b hb => ⟨getLsbD_ff_of_le h x y z b, getLsbD_gg_of_le h x y z hb⟩⟩⟩

/-! ## The schedule -/

theorem expand_length {block : List Word} (h : block.length = 16) : (expand block).length = 68 := by
  rw [expand, expandTo_length, h]

/-- The whole schedule agrees with its first 16 + k words. -/
theorem expand_getD {block : List Word} (h : block.length = 16) {k i : Nat} (hk : k ≤ 52) (hi : i < 16 + k) :
    (expand block).getD i 0 = (expandTo block k).getD i 0 := by
  rw [expand, ← Nat.add_sub_cancel' hk, expandTo_getD block k _ i (by rwa [h])]

/-- The next word of the schedule comes right after the first 16 + k (R87). -/
theorem expandTo_succ_getD {block : List Word} (h : block.length = 16) (k : Nat) :
    (expandTo block (k + 1)).getD (16 + k) 0 = nextW (expandTo block k) (16 + k) := by
  have hl : (expandTo block k).length = 16 + k := by rw [expandTo_length, h]
  rw [expandTo, List.getD_append_right _ _ _ _ hl.le, hl, Nat.sub_self]
  rfl

/-- Each word of the schedule from 16 on is the recurrence read over the whole schedule (R87). -/
theorem expand_getD_eq_nextW {block : List Word} (h : block.length = 16) {j : Nat} (h16 : 16 ≤ j) (h67 : j ≤ 67) :
    (expand block).getD j 0 = nextW (expand block) j := by
  obtain ⟨k, rfl⟩ := Nat.exists_eq_add_of_le h16
  have back (d : Nat) (hd : 0 < d) : (expand block).getD (16 + k - d) 0 = (expandTo block k).getD (16 + k - d) 0 :=
    expand_getD h (by omega) (by omega)
  rw [expand_getD h (k := k + 1) (by omega) (by omega), expandTo_succ_getD h, nextW, nextW, back 16 (by decide),
    back 9 (by decide), back 3 (by decide), back 13 (by decide), back 6 (by decide)]

/-- Settles O36: the schedule only grows, and its recurrence looks back only. -/
theorem scheduleRecurrence : Obligations.ScheduleRecurrence := by
  unfold Obligations.ScheduleRecurrence
  intro block h
  exact ⟨expand_length h, fun j hj => expand_getD h (k := 0) (Nat.zero_le _) hj,
    fun j h16 h67 => expand_getD_eq_nextW h h16 h67, fun j _ => rfl⟩

/-! ## The compression function -/

/-- Word i of a block is its bytes 4i to 4i + 3, big-endian (R86). -/
theorem parseBlock_toNat (block : List Byte) (i : Fin 16) :
    (parseBlock block)[i].toNat =
      (block.getD (4 * i.val) 0).toNat * 2 ^ 24 + (block.getD (4 * i.val + 1) 0).toNat * 2 ^ 16
        + (block.getD (4 * i.val + 2) 0).toNat * 2 ^ 8 + (block.getD (4 * i.val + 3) 0).toNat := by
  rw [parseBlock, packWords, Fin.getElem_fin, Vector.getElem_ofFn, be32_toNat]
  ring

/-- CF in terms of the registers after the 64 rounds (R90). -/
theorem cf_eq_mix (v : Vector Word 8) (block : List Byte) :
    cf v block = (rounds (expand (parseBlock block).toList) (Working.load v) 64).mix v := rfl

/-- Settles O37: the registers before each round are those of `rounds`. -/
theorem compressionFunction : Obligations.CompressionFunction := by
  unfold Obligations.CompressionFunction
  refine ⟨fun j _ => ⟨fun h => if_pos h, fun h => if_neg (Nat.not_lt.2 h)⟩, fun x => ⟨rfl, rfl⟩,
    fun block _ => parseBlock_toNat block, ?_, fun v block _ => ?_⟩
  · rintro w s _ _ _ _ j - rfl rfl rfl rfl
    rfl
  · exact ⟨rounds (expand (parseBlock block).toList) (Working.load v), rfl, fun j _ => rfl, cf_eq_mix v block⟩

/-! ## Padding -/

/-- The zeros bring the tail to 56 bytes modulo a block (R91). -/
theorem padZeros_mod (n : Nat) : (n + 1 + padZeros n) % 64 = 56 := by
  unfold padZeros
  omega

/-- No smaller number of zeros does (R91). -/
theorem padZeros_le {n k : Nat} (h : (n + 1 + k) % 64 = 56) : padZeros n ≤ k := by
  unfold padZeros
  omega

/-- The last eight bytes of the padding hold the bit length, which is below 2^64 (R91). -/
theorem bytesToNat_bitLength {len : Nat} (h : len ≤ 2 ^ 61 - 1) :
    bytesToNat (natToBytes 8 (8 * len % 2 ^ 64)) = 8 * len := by
  rw [bytesToNat_natToBytes]
  omega

/-- Settles O38. -/
theorem paddingShape : Obligations.PaddingShape := by
  unfold Obligations.PaddingShape
  intro buf len hbuf hlen
  have hl := pad_length buf len hbuf
  exact ⟨padZeros buf.length, natToBytes 8 (8 * len % 2 ^ 64), rfl, padZeros_mod _, fun _ => padZeros_le,
    natToBytes_length _ _, bytesToNat_bitLength hlen, fun h => hl.trans (if_pos h),
    fun h => hl.trans (if_neg (by omega))⟩

end Sys2Proof.Machine
end

section
/-! The four SM3 commands, each with its word and its whole effect (spec/40_sm3.md section 5). -/
namespace Sys2Proof.Machine

/-- Settles O39: among the twelve legal words one has OP = 0x01. -/
theorem sm3InitResult : Obligations.Sm3InitResult := by
  unfold Obligations.Sm3InitResult
  refine ⟨rfl, fun c hop hne => ?_, fun s => ⟨exec_eq .sm3Init s, fun t h => ?_⟩⟩
  · cases hd : decode c with
    | error r => exact ⟨r, rfl⟩
    | ok i =>
      have hmem := encode_mem_legalWords (wellFormed_of_decode hd)
      rw [encode_of_decode hd] at hmem
      have hword : ∀ q ∈ legalWords, q.1.extractLsb' 0 8 = 0x01 → q.1 = 0x00000001 := by decide
      exact absurd (hword _ hmem hop) hne
  · rw [exec_next h]
    exact statusFields_bufcnt _ _ _ _ _

/-- The word of SM3_WRITE by its count (R71, R72). -/
theorem encode_sm3Write {nb : Nat} (h1 : 1 ≤ nb) (h4 : nb ≤ 4) :
    encode (.sm3Write nb) = 0x00000002 + BitVec.ofNat 32 ((nb - 1) * 0x100) := by
  interval_cases nb <;> rfl

/-- Settles O40: past MAX_LEN `raise`, else the loop over at most four bytes, which fills at most one block. -/
theorem sm3WriteResult : Obligations.Sm3WriteResult := by
  unfold Obligations.Sm3WriteResult
  intro s nb h1 h4 hbuf
  refine ⟨encode_sm3Write h1 h4, fun hc => ?_, ?_⟩
  · rw [exec_eq, perform_sm3Write_error hc]
    rfl
  · rintro hc _ rfl
    have hdin : (dinBytes s.din nb).length ≤ 64 := by rw [dinBytes_length _ _ h4]; omega
    rw [exec_eq, perform_sm3Write_ok hc, foldl_appendByte _ _ hbuf hdin, BitVec.ofNat_add, BitVec.ofNat_toNat,
      BitVec.setWidth_eq]
    rfl

/-- The digest of a SM3_SUM on the stream of a message is its hash (R93, R96). -/
theorem exec_sm3Sum_digest {m : List Byte} {s t : State} (hs : StreamOf m s) (h : exec .sm3Sum s = .next t) :
    t.digest = sm3 m := by
  rw [exec_next h, perform_sm3Sum]
  exact cfTail_stream hs

/-- SM3_SUM leaves the stream of the empty message (R96, R99). -/
theorem exec_sm3Sum_stream {s t : State} (h : exec .sm3Sum s = .next t) : StreamOf [] t := by
  rw [exec_next h, perform_sm3Sum]
  exact streamOf_nil rfl rfl rfl

/-- Settles O41: the padded tail is one block or two, and the stream after it is that of the empty message. -/
theorem sm3SumResult : Obligations.Sm3SumResult := by
  unfold Obligations.Sm3SumResult
  refine ⟨rfl, fun s hbuf => ⟨?_, fun hlen hb hv t h => ?_, fun t h => ?_⟩⟩
  · rw [exec_eq, perform_sm3Sum, cfTail_pad _ _ _ hbuf]
    rfl
  · exact exec_sm3Sum_digest (streamOf_nil hv hb hlen) h
  · exact ⟨_, exec_eq .sm3Sum t, exec_sm3Sum_digest (exec_sm3Sum_stream h) (exec_eq .sm3Sum t)⟩

/-- SM3_COMPRESS compresses the bytes of BLK (R97). -/
theorem exec_sm3Compress (s : State) :
    exec .sm3Compress s =
      .next { s with v := cf s.v (unpackWords s.blk), err := false, errcode := 0, pending := none } := by
  rw [cf_unpackWords]
  exact exec_eq .sm3Compress s

/-- Settles O42: BLK stays, so the second command compresses the same block. -/
theorem sm3CompressResult : Obligations.Sm3CompressResult := by
  unfold Obligations.Sm3CompressResult
  refine ⟨rfl, fun s => ⟨unpackWords_length s.blk, packWords_unpackWords s.blk, exec_sm3Compress s, fun t h => ?_⟩⟩
  cases (exec_sm3Compress s).symm.trans h
  exact ⟨_, exec_sm3Compress _, rfl⟩

end Sys2Proof.Machine
end

section
/-! After SM3_SUM the engine hashes as a fresh one (spec/40_sm3.md R99): two idle engines that agree on V, BUF and LEN
agree after any pieces, even after pieces of a length that no SM3_WRITE has. -/
namespace Sys2Proof.Machine

/-- The word put together for any count is that of some SM3_WRITE: NBM1 is two bits (R70, R72). -/
theorem decode_encode_sm3Write_any (nb : Nat) : ∃ k, decode (encode (.sm3Write nb)) = .ok (.sm3Write k) := by
  have hnbm1 : BitVec.ofNat 2 (nb - 1) = BitVec.ofNat 2 ((nb - 1) % 4) := by
    apply BitVec.eq_of_toNat_eq
    simp
  refine ⟨(nb - 1) % 4 + 1, ?_⟩
  rw [encode, hnbm1, ← decode_encode_sm3Write (nb := (nb - 1) % 4 + 1) (by omega) (by omega), encode,
    Nat.add_sub_cancel]

/-- The state in which a piece stands in DIN and the word of its SM3_WRITE is pending. -/
def acceptPiece (p : Piece) (s : State) : State :=
  accept (encode (.sm3Write p.1.length)) { s with din := dinOf p.1 p.2 }

theorem writePiece_eq_finish {p : Piece} {k : Nat} (hk : decode (encode (.sm3Write p.1.length)) = .ok (.sm3Write k))
    {s : State} (hb : s.busy = false) :
    writePiece p s = .next (finish (acceptPiece p s) (perform (.sm3Write k) (acceptPiece p s))) := by
  have hidle : ({ s with din := dinOf p.1 p.2 } : State).busy = false := hb
  rw [writePiece, memWrite_idle hb, writeReg, issue, memWrite_idle hidle, complete_ok hk, exec_eq]
  rfl

/-- The end of an SM3_WRITE, failed or not, on two states that agree on what it reads: they agree on what SM3_SUM
reads, V, BUF and LEN. -/
theorem finish_sm3Write_agree {k : Nat} {s s' : State} (h : AgreeOnReads (.sm3Write k) s s') :
    AgreeOnReads .sm3Sum (finish s (perform (.sm3Write k) s)) (finish s' (perform (.sm3Write k) s')) := by
  rcases perform_congr h with ⟨e, hs, hs'⟩ | ⟨u, u', hs, hs', hw⟩
  · rw [hs, hs']
    exact h.2
  · rw [hs, hs']
    exact hw

/-- One piece, of any length, keeps two engines idle and in agreement. -/
theorem writePiece_agree (p : Piece) {s s' : State} (hb : s.busy = false) (hb' : s'.busy = false)
    (h : AgreeOnReads .sm3Sum s s') :
    ∃ t t', writePiece p s = .next t ∧ writePiece p s' = .next t' ∧ t.busy = false ∧ t'.busy = false
      ∧ AgreeOnReads .sm3Sum t t' := by
  obtain ⟨k, hk⟩ := decode_encode_sm3Write_any p.1.length
  exact ⟨_, _, writePiece_eq_finish hk hb, writePiece_eq_finish hk hb', (not_busy_iff _).2 (finish_pending _ _),
    (not_busy_iff _).2 (finish_pending _ _), finish_sm3Write_agree ⟨rfl, h⟩⟩

/-- So do several. -/
theorem writePieces_agree (pieces : List Piece) {s s' : State} (hb : s.busy = false) (hb' : s'.busy = false)
    (h : AgreeOnReads .sm3Sum s s') :
    ∃ t t', writePieces pieces s = .next t ∧ writePieces pieces s' = .next t' ∧ t.busy = false ∧ t'.busy = false
      ∧ AgreeOnReads .sm3Sum t t' := by
  induction pieces generalizing s s' with
  | nil => exact ⟨s, s', rfl, rfl, hb, hb', h⟩
  | cons p ps ih =>
    obtain ⟨u, u', hu, hu', hub, hub', huu⟩ := writePiece_agree p hb hb' h
    obtain ⟨t, t', ht, ht', hrest⟩ := ih hub hub' huu
    exact ⟨t, t', by rw [writePieces, hu, andThen_next, ht], by rw [writePieces, hu', andThen_next, ht'], hrest⟩

/-- The digest after the same pieces and SM3_SUM is the same. -/
theorem digest_after_pieces_agree {pieces : List Piece} {s s' a a' : State} (hb : s.busy = false)
    (hb' : s'.busy = false) (h : AgreeOnReads .sm3Sum s s')
    (ha : andThen (writePieces pieces s) (issue .sm3Sum) = .next a)
    (ha' : andThen (writePieces pieces s') (issue .sm3Sum) = .next a') : a.digest = a'.digest := by
  obtain ⟨t, t', ht, ht', htb, htb', hbuf, hlen, hv⟩ := writePieces_agree pieces hb hb' h
  obtain ⟨d, hd, hdigest⟩ := issue_sm3Sum_next htb
  obtain ⟨d', hd', hdigest'⟩ := issue_sm3Sum_next htb'
  rw [ht, andThen_next, hd] at ha
  rw [ht', andThen_next, hd'] at ha'
  cases ha
  cases ha'
  rw [hdigest, hdigest', hbuf, hlen, hv]

/-- Settles O45: SM3_SUM leaves the engine idle with V, BUF and LEN as SM3_INIT and reset leave them. -/
theorem sumLeavesAFreshEngine : Obligations.SumLeavesAFreshEngine := by
  unfold Obligations.SumLeavesAFreshEngine
  intro s t u ht hu
  rw [exec_next ht, exec_next hu, perform_sm3Sum, perform_sm3Init]
  exact ⟨rfl, rfl, rfl, fun pieces a b => digest_after_pieces_agree rfl rfl ⟨rfl, rfl, rfl⟩⟩

end Sys2Proof.Machine
end

section
/-! Decompression: the two roots of a square and their parities (spec/41_sm2_point.md R125, R129). -/
namespace Sys2Proof.Machine

/-- The cubic has no root below p (R129). -/
theorem rhs_ne_zero (x : Nat) : rhs x ≠ 0 := by
  intro h
  have hdvd : ((x ^ 3 + Curve.a * x + Curve.b : Nat) : ZMod Curve.p) = 0 :=
    (ZMod.natCast_eq_zero_iff _ _).2 (Nat.dvd_of_mod_eq_zero h)
  push_cast at hdvd
  exact Cubic.no_root x hdvd

theorem isRoot_pos {x y : Nat} (h : IsRoot x y) : 0 < y := by
  obtain ⟨-, hy⟩ := h
  rcases Nat.eq_zero_or_pos y with rfl | hpos
  · exact absurd hy.symm (rhs_ne_zero x)
  · exact hpos

/-- The opposite of a root is a root below p: no root is 0. -/
theorem isRoot_neg {x y : Nat} (h : IsRoot x y) : IsRoot x (Curve.p - y) :=
  ⟨Nat.sub_lt (by decide) (isRoot_pos h), neg_root h.1 h.2⟩

/-- Opposite roots have opposite parities: p is odd. -/
theorem isRoot_neg_parity {x y : Nat} (h : IsRoot x y) : (Curve.p - y) % 2 ≠ y % 2 := by
  have := h.1
  have := p_odd
  omega

theorem isRoot_eq_or_neg {x y z : Nat} (hy : IsRoot x y) (hz : IsRoot x z) : z = y ∨ z = Curve.p - y := by
  by_cases h : y % 2 = z % 2
  · exact .inl (isRoot_unique hy hz h).symm
  · have := isRoot_neg_parity hy
    exact .inr (isRoot_unique hz (isRoot_neg hy) (by omega))

/-- Where there is a root, there is one of each parity (R129). -/
theorem exists_isRoot_of_parity {x y t : Nat} (h : IsRoot x y) (ht : t < 2) : ∃ z, IsRoot x z ∧ z % 2 = t := by
  by_cases hy : y % 2 = t
  · exact ⟨y, h, hy⟩
  · have := isRoot_neg_parity h
    exact ⟨Curve.p - y, isRoot_neg h, by omega⟩

theorem decompress_eq_ok_iff {x t y : Nat} : decompress x t = .ok y ↔ IsRoot x y ∧ y % 2 = t := by
  rcases decompress_cases x t with ⟨hno, e⟩ | ⟨-, hpar, e⟩ | ⟨z, hz, hzt, e⟩
  · simp [e, hno]
  · simpa [e] using hpar y
  · rw [e, Except.ok.injEq]
    constructor
    · rintro rfl
      exact ⟨hz, hzt⟩
    · rintro ⟨hy, hyt⟩
      exact isRoot_unique hz hy (hzt.trans hyt.symm)

theorem decompress_eq_notOnCurve_iff {x t : Nat} :
    decompress x t = .error .notOnCurve ↔ ¬ ∃ y, IsRoot x y := by
  rcases decompress_cases x t with ⟨hno, e⟩ | ⟨hy, -, e⟩ | ⟨y, hy, -, e⟩
  · simpa [e] using hno
  · simpa [e] using hy
  · simpa [e] using ⟨y, hy⟩

theorem decompress_eq_invalidEncoding_iff {x t : Nat} :
    decompress x t = .error .invalidEncoding ↔ (∃ y, IsRoot x y) ∧ ¬ ∃ y, IsRoot x y ∧ y % 2 = t := by
  rcases decompress_cases x t with ⟨hno, e⟩ | ⟨hy, hpar, e⟩ | ⟨y, hy, hyt, e⟩
  · simp [e, hno]
  · simpa [e] using ⟨hy, hpar⟩
  · simpa [e] using fun _ _ => ⟨y, hy, hyt⟩

/-- Decompression never raises INVALID_ENCODING (R129). -/
theorem decompress_ne_invalidEncoding {t : Nat} (x : Nat) (ht : t < 2) :
    decompress x t ≠ .error .invalidEncoding := by
  intro h
  obtain ⟨⟨y, hy⟩, hno⟩ := decompress_eq_invalidEncoding_iff.1 h
  exact hno (exists_isRoot_of_parity hy ht)

/-- Settles O47, answer by answer. -/
theorem decompressIsTheRootOfTheParity : Obligations.DecompressIsTheRootOfTheParity := by
  unfold Obligations.DecompressIsTheRootOfTheParity
  exact fun x t _ _ =>
    ⟨fun y => decompress_eq_ok_iff, decompress_eq_notOnCurve_iff, decompress_eq_invalidEncoding_iff⟩

end Sys2Proof.Machine
end

section
/-! PT_DECODE: what each form of an encoding answers (spec/41_sm2_point.md R126, R128, R129). -/
namespace Sys2Proof.Machine

/-- PT_DECODE of a rejected encoding ends in `raise` (R126, R171). -/
theorem exec_ptDecode_error {s : State} {e : ErrorKind} (h : decodePoint s.pklen.toNat s.pkb = .error e) :
    exec .ptDecode s = .next (raise e s) := by
  rw [exec_eq, perform_ptDecode_error h, finish_error]

/-- PT_DECODE of an accepted encoding writes its point (R126). -/
theorem exec_ptDecode_ok {s : State} {x y : Nat} (h : decodePoint s.pklen.toNat s.pkb = .ok (x, y)) :
    exec .ptDecode s = .next (succeed { s with px := coordWords x, py := coordWords y }) := by
  rw [exec_eq, perform_ptDecode_ok h, finish_ok]

/-- The words written for an integer below p have its value. -/
theorem coordValue_coordWords_of_lt_p {x : Nat} (h : x < Curve.p) : coordValue (coordWords x) = x :=
  coordValue_coordWords x (h.trans (by decide))

/-- An accepted encoding gives a point of the curve: each branch of R126 checks it (R128). -/
theorem decodePoint_isRoot {l : Nat} {pkb : List Byte} {x y : Nat} (h : decodePoint l pkb = .ok (x, y)) :
    x < Curve.p ∧ IsRoot x y := by
  obtain ⟨⟨-, -, hd⟩ | ⟨-, -, -, hon⟩, -, hx⟩ := decodePoint_ok h
  · exact ⟨hx, (decompress_eq_ok_iff.1 hd).1⟩
  · exact onCurve_iff.1 hon

/-- The decoder compares the first byte by its value (R126). -/
theorem toNat_mem_map_iff (b : Byte) (l : List Byte) : b.toNat ∈ l.map BitVec.toNat ↔ b ∈ l :=
  List.mem_map_of_injective fun _ _ => BitVec.eq_of_toNat_eq

/-! ## The first checks -/

/-- The first five checks of R126 all answer INVALID_ENCODING. -/
theorem decodePoint_reject {l : Nat} {pkb : List Byte}
    (h : l = 0 ∨ pkb.getD 0 0 ∉ [(0x02 : Byte), 0x03, 0x04, 0x06, 0x07]
      ∨ (pkb.getD 0 0 ∈ [(0x02 : Byte), 0x03] ∧ l ≠ 33) ∨ (pkb.getD 0 0 ∈ [(0x04 : Byte), 0x06, 0x07] ∧ l ≠ 65)) :
    decodePoint l pkb = .error .invalidEncoding := by
  simp only [← toNat_mem_map_iff (pkb.getD 0 0)] at h
  unfold decodePoint
  dsimp only
  split
  · rfl
  split
  · rfl
  split
  · rfl
  next h0 _ hpf =>
  split
  · rfl
  next h33 =>
  split
  · rfl
  next h65 => exact (h.elim h0 (·.elim hpf (·.elim h33 h65))).elim

/-- Settles O49: the rejections by length and first byte. -/
theorem ptDecodeRejectsLengthAndPrefix : Obligations.PtDecodeRejectsLengthAndPrefix := by
  unfold Obligations.PtDecodeRejectsLengthAndPrefix
  intro s h
  exact exec_ptDecode_error (decodePoint_reject (by simpa [BitVec.toNat_eq] using h))

/-! ## The 33-byte forms -/

section Compressed
variable {pkb : List Byte} {pf : Byte} {x : Nat} (hpf : pkb.getD 0 0 = pf) (hmem : pf ∈ [(0x02 : Byte), 0x03])
  (hx : x = bytesToNat ((pkb.drop 1).take 32))
include hpf hmem hx

/-- With the right length the range of X and decompression are left. -/
theorem decodePoint_compressed :
    decodePoint 33 pkb =
      if x ≥ Curve.p then .error .notOnCurve else (decompress x (pf.toNat % 2)).map fun y => (x, y) := by
  rw [List.mem_pair] at hmem
  unfold decodePoint
  rw [hpf, ← hx]
  rcases hmem with rfl | rfl
  · simp
  · simp

theorem decodePoint_compressed_ok {y : Nat} (hlt : x < Curve.p) (hy : IsRoot x y) (hpar : y % 2 = pf.toNat % 2) :
    decodePoint 33 pkb = .ok (x, y) := by
  rw [decodePoint_compressed hpf hmem hx, if_neg (Nat.not_le.2 hlt), decompress_eq_ok_iff.2 ⟨hy, hpar⟩]
  rfl

theorem decodePoint_compressed_notOnCurve (h : Curve.p ≤ x ∨ ¬ ∃ y, IsRoot x y) :
    decodePoint 33 pkb = .error .notOnCurve := by
  rw [decodePoint_compressed hpf hmem hx]
  split
  · rfl
  next hlt =>
    rw [decompress_eq_notOnCurve_iff.2 (h.resolve_left hlt)]
    rfl

end Compressed

/-! ## The 65-byte forms -/

section Ordinate
variable {pkb : List Byte} {pf : Byte} {x y : Nat} (hpf : pkb.getD 0 0 = pf)
  (hmem : pf ∈ [(0x04 : Byte), 0x06, 0x07]) (hx : x = bytesToNat ((pkb.drop 1).take 32))
  (hy : y = bytesToNat ((pkb.drop 33).take 32))
include hpf hmem hx hy

/-- With the right length the parity of a mixed form and ONCURVE are left, which covers the range of the coordinates
(R123). -/
theorem decodePoint_ordinate :
    decodePoint 65 pkb =
      if pf ≠ 0x04 ∧ y % 2 ≠ pf.toNat % 2 then .error .invalidEncoding
      else if onCurve x y then .ok (x, y) else .error .notOnCurve := by
  have hrange : ∀ r r' : Except ErrorKind (Nat × Nat),
      (if x ≥ Curve.p ∨ y ≥ Curve.p then r else if onCurve x y then r' else r) = if onCurve x y then r' else r := by
    intro r r'
    split
    next h => rw [if_neg (by rw [onCurve_iff]; omega)]
    · rfl
  simp only [List.mem_cons, List.not_mem_nil, or_false] at hmem
  unfold decodePoint
  rw [hpf, ← hx, ← hy]
  rcases hmem with rfl | rfl | rfl
  · simp [hrange]
  · simp [hrange]
  · simp [hrange]

theorem decodePoint_ordinate_parity (h4 : pf ≠ 0x04) (hpar : y % 2 ≠ pf.toNat % 2) :
    decodePoint 65 pkb = .error .invalidEncoding := by
  rw [decodePoint_ordinate hpf hmem hx hy, if_pos ⟨h4, hpar⟩]

theorem decodePoint_ordinate_ok (hpar : pf = 0x04 ∨ y % 2 = pf.toNat % 2) (hon : onCurve x y = true) :
    decodePoint 65 pkb = .ok (x, y) := by
  rw [decodePoint_ordinate hpf hmem hx hy, if_neg (by tauto), if_pos hon]

theorem decodePoint_ordinate_notOnCurve (hpar : pf = 0x04 ∨ y % 2 = pf.toNat % 2) (hoff : ¬ onCurve x y = true) :
    decodePoint 65 pkb = .error .notOnCurve := by
  rw [decodePoint_ordinate hpf hmem hx hy, if_neg (by tauto), if_neg hoff]

end Ordinate

/-! ## The command -/

/-- An accepted encoding in the registers is written as a point whose words have its coordinates. -/
theorem exec_ptDecode_writes {s : State} {x y : Nat} (h : decodePoint s.pklen.toNat s.pkb = .ok (x, y)) :
    ∃ px py, exec .ptDecode s = .next { s with px := px, py := py, err := false, errcode := 0, pending := none }
      ∧ coordValue px = x ∧ coordValue py = y :=
  have ⟨hx, hy, _⟩ := decodePoint_isRoot h
  ⟨_, _, exec_ptDecode_ok h, coordValue_coordWords_of_lt_p hx, coordValue_coordWords_of_lt_p hy⟩

/-- Settles O51, by the two answers of `decodePoint` to such a form. -/
theorem ptDecodeCompressed : Obligations.PtDecodeCompressed := by
  unfold Obligations.PtDecodeCompressed
  intro s pf x hl hpf hmem hx
  refine ⟨fun h => exec_ptDecode_error (e := .notOnCurve) ?_, fun hlt y hy hpar => exec_ptDecode_writes ?_⟩
  · rw [hl]
    exact decodePoint_compressed_notOnCurve hpf hmem hx h
  · rw [hl]
    exact decodePoint_compressed_ok hpf hmem hx hlt hy hpar

/-- Settles O50, by the three answers of `decodePoint` to such a form; off the curve is a coordinate out of range or a
pair that misses the equation. -/
theorem ptDecodeWithOrdinate : Obligations.PtDecodeWithOrdinate := by
  unfold Obligations.PtDecodeWithOrdinate
  intro s pf x y hl hpf hmem hx hy
  refine ⟨fun h4 hpar => exec_ptDecode_error (e := .invalidEncoding) ?_, fun hpar =>
    ⟨fun hoff => exec_ptDecode_error (e := .notOnCurve) ?_, fun hxp hyp heq => exec_ptDecode_writes ?_⟩⟩
  · rw [hl]
    exact decodePoint_ordinate_parity hpf hmem hx hy h4 hpar
  · rw [hl]
    refine decodePoint_ordinate_notOnCurve hpf hmem hx hy hpar ?_
    rw [onCurve_iff, rhs]
    omega
  · rw [hl]
    exact decodePoint_ordinate_ok hpf hmem hx hy hpar (onCurve_iff.2 ⟨hxp, hyp, heq⟩)

/-- Settles O52: an accepted point is on the curve, and 0x00 begins no form. -/
theorem decodedPointIsOnTheCurve : Obligations.DecodedPointIsOnTheCurve := by
  unfold Obligations.DecodedPointIsOnTheCurve
  refine ⟨fun s t h he => ?_, fun s t hpf h => ?_⟩
  · obtain ⟨⟨x, y⟩, hd⟩ := ptDecode_succeeds h he
    obtain ⟨px, py, hexec, hpx, hpy⟩ := exec_ptDecode_writes hd
    obtain ⟨hx, hy, heq⟩ := decodePoint_isRoot hd
    cases h.symm.trans hexec
    rw [hpx, hpy, sq]
    exact ⟨hx, hy, heq⟩
  · have hreject := decodePoint_reject (l := s.pklen.toNat) (pkb := s.pkb) (.inr (.inl (by rw [hpf]; decide)))
    cases h.symm.trans (exec_ptDecode_error hreject)
    rfl

/-- A 33-byte form with X below p fails exactly where rhs(X) has no root: a root of the wanted parity is there with
any other (R129). -/
theorem ptDecode_compressed_fails_iff {s t : State} {x : Nat} (hlt : x < Curve.p) (hl : s.pklen = 33)
    (hmem : s.pkb.getD 0 0 ∈ [(0x02 : Byte), 0x03]) (hx : x = bytesToNat ((s.pkb.drop 1).take 32))
    (h : exec .ptDecode s = .next t) : t.err = true ↔ ¬ ∃ y, IsRoot x y := by
  obtain ⟨hfail, hok⟩ := ptDecodeCompressed s _ x hl rfl hmem hx
  by_cases hroot : ∃ y, IsRoot x y
  · obtain ⟨y, hy⟩ := hroot
    obtain ⟨z, hz, hpar⟩ := exists_isRoot_of_parity (t := (s.pkb.getD 0 0).toNat % 2) hy (Nat.mod_lt _ two_pos)
    obtain ⟨px, py, hexec, -⟩ := hok hlt z hz hpar
    cases h.symm.trans hexec
    simpa using ⟨y, hy⟩
  · cases h.symm.trans (hfail (.inr hroot))
    simpa using hroot

/-- Settles O48: the cubic has no root, so roots come in pairs of opposite parity, and the rest follows. -/
theorem noPointWithOrdinateZero : Obligations.NoPointWithOrdinateZero := by
  unfold Obligations.NoPointWithOrdinateZero
  exact fun x hlt => ⟨rhs_ne_zero x, fun y hy => ⟨isRoot_neg hy, isRoot_neg_parity hy, fun z => isRoot_eq_or_neg hy⟩,
    fun t => decompress_ne_invalidEncoding x, fun s t => ptDecode_compressed_fails_iff hlt⟩

end Sys2Proof.Machine
end

section
/-! PT_ENCODE, and PT_DECODE of what it writes (spec/41_sm2_point.md R127, R130). -/
namespace Sys2Proof.Machine

/-- PT_ENCODE always succeeds (R127). -/
theorem exec_ptEncode (mode : EncMode) (s : State) :
    exec (.ptEncode mode) s =
      .next (succeed { s with pk := packWords 17 (encodePoint mode (coordValue s.px) (coordValue s.py))
                              pklen := BitVec.ofNat 7 (encodePoint mode (coordValue s.px) (coordValue s.py)).length }) := by
  rw [exec_eq, perform_ptEncode, finish_ok]

/-- PKB holds an encoding with zeros after it (R127). -/
theorem unpackWords_packWords_encodePoint (mode : EncMode) (x y : Nat) :
    unpackWords (packWords 17 (encodePoint mode x y)) =
      encodePoint mode x y ++ List.replicate (68 - (encodePoint mode x y).length) 0 :=
  unpackWords_packWords _ (by rw [encodePoint_length]; split <;> decide)

/-- The first byte that says the parity of a coordinate, by bit 0 of its last word (R127, 10_state.md R26). -/
theorem ofNat_parityByte (k : Nat) (ws : Vector Word 8) :
    BitVec.ofNat 8 (k + coordValue ws % 2) = if ws[7].getLsbD 0 then BitVec.ofNat 8 (k + 1) else BitVec.ofNat 8 k := by
  rw [coordValue_mod_two]
  cases ws[7].getLsbD 0 <;> rfl

/-- Settles O53, mode by mode. -/
theorem ptEncodeResult : Obligations.PtEncodeResult := by
  unfold Obligations.PtEncodeResult
  refine ⟨rfl, rfl, rfl, fun s mode => ⟨_, exec_ptEncode mode s, rfl, _, _, rfl, rfl, bytesToNat_unpackWords s.px,
    bytesToNat_unpackWords s.py, ?_⟩⟩
  simp only [State.pkb, succeed_pk, succeed_pklen, unpackWords_packWords_encodePoint, encodePoint_length]
  cases mode with
  | nocompress => simp [encodePoint, natToBytes_coordValue]
  | compress => simp [encodePoint, natToBytes_coordValue, ofNat_parityByte]
  | mix => simp [encodePoint, natToBytes_coordValue, ofNat_parityByte]

/-- The bytes of an integer below p have its value (R12). -/
theorem bytesToNat_natToBytes_of_lt_p {x : Nat} (h : x < Curve.p) : bytesToNat (natToBytes 32 x) = x := by
  rw [bytesToNat_natToBytes, Nat.mod_eq_of_lt (h.trans (by decide))]

theorem parityByte_mem (k y : Nat) : BitVec.ofNat 8 (k + y % 2) ∈ [BitVec.ofNat 8 k, BitVec.ofNat 8 (k + 1)] := by
  rcases Nat.mod_two_eq_zero_or_one y with h | h <;> simp [h]

/-- The parity of y can be read off the first byte, whose least value is even (R126). -/
theorem parityByte_mod_two (y : Nat) {k : Nat} (hk : k % 2 = 0) : y % 2 = (BitVec.ofNat 8 (k + y % 2)).toNat % 2 := by
  rw [BitVec.toNat_ofNat]
  omega

/-- Decoding restores an encoded point of the curve, whatever bytes stand after the encoding (R130). -/
theorem decodePoint_encodePoint (mode : EncMode) {x y : Nat} (h : onCurve x y = true) (tail : List Byte) :
    decodePoint (encodePoint mode x y).length (encodePoint mode x y ++ tail) = .ok (x, y) := by
  obtain ⟨hx, hy, heq⟩ := onCurve_iff.1 h
  have hxb := bytesToNat_natToBytes_of_lt_p hx
  have hyb := bytesToNat_natToBytes_of_lt_p hy
  rw [encodePoint_length]
  cases mode with
  | nocompress =>
    refine decodePoint_ordinate_ok (pf := 0x04) rfl (by decide) ?_ ?_ (.inl rfl) h
    · simp [encodePoint, hxb]
    · simp [encodePoint, hyb]
  | compress =>
    refine decodePoint_compressed_ok (pf := BitVec.ofNat 8 (0x02 + y % 2)) rfl (parityByte_mem 0x02 y) ?_ hx ⟨hy, heq⟩
      (parityByte_mod_two y rfl)
    simp [encodePoint, hxb]
  | mix =>
    refine decodePoint_ordinate_ok (pf := BitVec.ofNat 8 (0x06 + y % 2)) rfl
      (List.mem_cons_of_mem _ (parityByte_mem 0x06 y)) ?_ ?_ (.inr (parityByte_mod_two y rfl)) h
    · simp [encodePoint, hxb]
    · simp [encodePoint, hyb]

/-- PKLEN holds the length of an encoding: seven bits are enough (R127). -/
theorem ofNat_encodePoint_length (mode : EncMode) (x y : Nat) :
    (BitVec.ofNat 7 (encodePoint mode x y).length).toNat = (encodePoint mode x y).length := by
  rw [encodePoint_length]
  split <;> rfl

/-- Settles O54: PKB is the encoding with zeros after it, whose point is the one that was encoded. -/
theorem pointCodecRoundTrip : Obligations.PointCodecRoundTrip := by
  unfold Obligations.PointCodecRoundTrip
  intro s mode h
  refine ⟨_, _, exec_ptEncode mode s, exec_ptDecode_ok (x := coordValue s.px) (y := coordValue s.py) ?_,
    coordWords_coordValue s.px, coordWords_coordValue s.py, rfl⟩
  rw [succeed_pklen, ofNat_encodePoint_length, State.pkb, succeed_pk, unpackWords_packWords_encodePoint]
  exact decodePoint_encodePoint mode h _

end Sys2Proof.Machine
end

section
/-! The completion of a due word, legal or not, and NOP (spec/42_control.md R150, R151, R152). -/
namespace Sys2Proof.Machine

/-- The step that completes a legal word runs its command (R150). -/
theorem step_due_ok {s : State} {c : Word} {i : Instr} (h : s.Due c) (hi : decode c = .ok i) :
    step s = exec i s.popEvent :=
  (step_due h).trans (complete_ok hi _)

/-- The step that completes an illegal word raises ILLEGAL_COMMAND (R152). -/
theorem step_due_error {s : State} {c : Word} {r : IllegalReason} (h : s.Due c) (hr : decode c = .error r) :
    step s = .next (raise .illegalCommand s.popEvent) :=
  (step_due h).trans (complete_error hr _)

/-- A word that is none of the twelve is illegal (R76). -/
theorem decode_error_of_not_legal {c : Word} (h : c ∉ legalWords.map Prod.fst) : ∃ r, decode c = .error r := by
  cases hd : decode c with
  | error r => exact ⟨r, rfl⟩
  | ok i => exact absurd (List.mem_map_of_mem ((decodeAcceptsExactlyTwelveWords c i).1 hd)) h

/-- Settles O9: the decoder rejects the word, and `raise` is all its completion does. -/
theorem illegalWordStepRaisesIllegalCommand : Obligations.IllegalWordStepRaisesIllegalCommand := by
  unfold Obligations.IllegalWordStepRaisesIllegalCommand
  intro s c hdue hc
  obtain ⟨r, hr⟩ := decode_error_of_not_legal hc
  exact step_due_error hdue hr

/-- A placed word is due at the next step (log 6). -/
theorem placePending_due (c : Word) (s : State) : (placePending c s).Due c := ⟨rfl, rfl, rfl, rfl⟩

/-- A 32-bit word of the opcode table is the number's low 32 bits (R77). -/
theorem tableWord_32 (w : Nat) : tableWord 32 w = BitVec.ofNat 32 w := by
  apply BitVec.eq_of_toNat_eq
  rw [tableWord, BitVec.toNat_ofNat, BitVec.toNat_ofNat, Nat.mod_mod]

theorem decodeTableWord_eq_some {nbits w : Nat} {i : Instr} (h : decodeTableWord nbits w = some i) :
    decode (tableWord nbits w) = .ok i := by
  unfold decodeTableWord at h
  split at h
  · next j hj => rwa [Option.some.inj h] at hj
  · cases h

/-- Settles O6: a due step is the completion of its word, and a placed word is due with no outside event to take. -/
theorem stepRunsTheDecodedCommand : Obligations.StepRunsTheDecodedCommand := by
  unfold Obligations.StepRunsTheDecodedCommand
  refine ⟨fun s c i => step_due_ok, fun s w i h => ?_⟩
  have hdue : (s.withFetchWord 32 w).Due (tableWord 32 w) := placePending_due _ s
  exact ⟨tableWord_32 w ▸ hdue, step_due_ok hdue (decodeTableWord_eq_some h)⟩

/-- STATUS with every field but BUFCNT 0 (10_state.md R31). -/
theorem statusFields_clear (bufcnt : BitVec 6) : statusFields bufcnt 0 false false false = 0#18 ++ bufcnt ++ 0#8 := by
  apply BitVec.eq_of_toNat_eq
  rw [statusFields_toNat, toNat_append_eq (0#18 ++ bufcnt), toNat_append_eq 0#18]
  simp

/-- NOP ends with the errors cleared and performs nothing (R151). -/
theorem exec_nop (s : State) : exec .nop s = .next (succeed s) := by
  rw [exec_eq, perform_nop, finish_ok]

/-- Settles O55: acceptance clears BERR, and the end of NOP clears the rest of STATUS but BUFCNT. -/
theorem nopResult : Obligations.NopResult := by
  unfold Obligations.NopResult
  refine ⟨rfl, fun s => ⟨exec_nop s, fun hb t h => ?_⟩⟩
  have hissue : issue .nop s = .next (succeed (accept (encode .nop) s)) := issue_eq (decode_of_encode rfl) hb
  cases hissue.symm.trans h
  exact statusFields_clear s.bufcnt

end Sys2Proof.Machine
end

section
/-! The end of every completion, and the errors each command can report (spec/60_exceptions.md R170, R171, R174). -/
namespace Sys2Proof.Machine

/-- A completion is the end of what the word performed: its command's, or ILLEGAL_COMMAND (R150, R152). -/
theorem complete_next {c : Word} {s t : State} (h : complete c s = .next t) :
    ∃ r, t = finish s r ∧ (∀ i, decode c = .ok i → r = perform i s)
      ∧ ∀ x, decode c = .error x → r = .error .illegalCommand := by
  rcases complete_cases c s with ⟨i, hd, he⟩ | ⟨x, hd, he⟩
  · refine ⟨perform i s, Host.Outcome.next.inj (h.symm.trans he), fun j hj => ?_, fun x hx => ?_⟩
    · cases hd.symm.trans hj
      rfl
    · cases hd.symm.trans hx
  · refine ⟨.error .illegalCommand, Host.Outcome.next.inj (h.symm.trans he), fun j hj => ?_, fun _ _ => rfl⟩
    cases hd.symm.trans hj

/-- Settles O56: an end with ERR = 1 is a `raise`. -/
theorem failedCommandIsPrecise : Obligations.FailedCommandIsPrecise := by
  unfold Obligations.FailedCommandIsPrecise
  intro s t c h herr
  obtain ⟨r, rfl, -⟩ := complete_next h
  cases r with
  | ok u => cases herr
  | error e => exact ⟨e, rfl⟩

/-- ERR says whether ERRCODE is a code: no error kind has code 0 (R170). -/
theorem finish_err_iff (s : State) (r : Except ErrorKind State) :
    (finish s r).err = true ↔ (finish s r).errcode ≠ 0 := by
  cases r with
  | ok u => simp
  | error e => simpa using code_ne_zero e

/-- The error kinds a command can raise (R170). -/
def errorKinds : Instr → List ErrorKind
  | .sm3Write _ => [.hashState]
  | .ptDecode => [.invalidEncoding, .notOnCurve]
  | .nop | .sm3Init | .sm3Sum | .sm3Compress | .ptEncode _ => []

/-- Decompression answers NOT_ON_CURVE or INVALID_ENCODING where it fails (41_sm2_point.md R125). -/
theorem decompress_error {x t : Nat} {e : ErrorKind} (h : decompress x t = .error e) :
    e ∈ errorKinds .ptDecode := by
  rcases decompress_cases x t with ⟨-, hd⟩ | ⟨-, -, hd⟩ | ⟨y, -, -, hd⟩ <;> cases h.symm.trans hd
  · decide
  · decide

/-- The decoder of points answers one of the same two where it fails: at its first checks, or in the form its first byte
names (41_sm2_point.md R126). -/
theorem decodePoint_error {l : Nat} {pkb : List Byte} {e : ErrorKind} (h : decodePoint l pkb = .error e) :
    e ∈ errorKinds .ptDecode := by
  by_cases hrej : l = 0 ∨ pkb.getD 0 0 ∉ [(0x02 : Byte), 0x03, 0x04, 0x06, 0x07]
      ∨ (pkb.getD 0 0 ∈ [(0x02 : Byte), 0x03] ∧ l ≠ 33) ∨ (pkb.getD 0 0 ∈ [(0x04 : Byte), 0x06, 0x07] ∧ l ≠ 65)
  · cases h.symm.trans (decodePoint_reject hrej)
    decide
  · simp only [not_or, not_and, not_not] at hrej
    obtain ⟨-, hpf, h33, h65⟩ := hrej
    rcases (List.mem_append (s := [(0x02 : Byte), 0x03])).1 hpf with hmem | hmem
    · rw [h33 hmem, decodePoint_compressed rfl hmem rfl] at h
      split at h
      · cases h
        decide
      · cases hd : decompress (bytesToNat ((pkb.drop 1).take 32)) ((pkb.getD 0 0).toNat % 2) with
        | ok y => rw [hd] at h; cases h
        | error e' =>
          rw [hd] at h
          cases h
          exact decompress_error hd
    · rw [h65 hmem, decodePoint_ordinate rfl hmem rfl rfl] at h
      split at h
      · cases h
        decide
      split at h
      · cases h
      · cases h
        decide

/-- What a command raises is one of its kinds. -/
theorem perform_error {i : Instr} {s : State} {e : ErrorKind} (h : perform i s = .error e) : e ∈ errorKinds i := by
  cases i with
  | nop | sm3Init | sm3Sum | sm3Compress | ptEncode _ => cases h
  | sm3Write nb =>
    by_cases hc : s.len.toNat + nb ≤ maxLen
    · cases h.symm.trans (perform_sm3Write_ok hc)
    · cases h.symm.trans (perform_sm3Write_error (Nat.lt_of_not_le hc))
      exact List.mem_singleton_self _
  | ptDecode =>
    cases hd : decodePoint s.pklen.toNat s.pkb with
    | ok q => cases h.symm.trans (perform_ptDecode_ok hd)
    | error e' =>
      cases h.symm.trans (perform_ptDecode_error hd)
      exact decodePoint_error hd

/-- A command ends with ERRCODE 0 or the code of one of its kinds. -/
theorem finish_perform_errcode (i : Instr) (s : State) :
    (finish s (perform i s)).errcode = 0 ∨ ∃ e ∈ errorKinds i, (finish s (perform i s)).errcode = e.code := by
  cases h : perform i s with
  | ok u => exact .inl rfl
  | error e => exact .inr ⟨e, perform_error h, rfl⟩

theorem errorKinds_eq_nil {i : Instr} (hw : ∀ nb, i ≠ .sm3Write nb) (hp : i ≠ .ptDecode) : errorKinds i = [] := by
  cases i with
  | nop | sm3Init | sm3Sum | sm3Compress | ptEncode _ => rfl
  | sm3Write nb => exact absurd rfl (hw nb)
  | ptDecode => exact absurd rfl hp

/-- Settles O57: an illegal word by its one error, a command by its list of kinds. -/
theorem errorsOfEachCommand : Obligations.ErrorsOfEachCommand := by
  unfold Obligations.ErrorsOfEachCommand
  intro s t c h
  obtain ⟨r, rfl, hok, hillegal⟩ := complete_next h
  have hcode : ∀ i, decode c = .ok i →
      (finish s r).errcode = 0 ∨ ∃ e ∈ errorKinds i, (finish s r).errcode = e.code := by
    intro i hd
    rw [hok i hd]
    exact finish_perform_errcode i s
  refine ⟨finish_err_iff s r, fun x hx => ?_, fun nb hd => ?_, fun hd => ?_, fun i hd hw hp => ?_⟩
  · rw [hillegal x hx]
    rfl
  · simpa [errorKinds, ErrorKind.code] using hcode _ hd
  · simpa [errorKinds, ErrorKind.code] using hcode _ hd
  · simpa [errorKinds_eq_nil hw hp] using hcode i hd

end Sys2Proof.Machine
end

section
/-! Loss of power (spec/60_exceptions.md R184, spec/93_implementation_defined.md U8). -/
namespace Sys2Proof.Machine

/-- Without power a step with no reset is refused (U8). -/
theorem step_refused_of_powerLost {s : State} (hl : s.powerLost = true) (he : s.nextEvent = .quiet) :
    step s = .refused .powerLostWithoutReset := by
  unfold step
  rw [he]
  exact if_pos hl

/-- A step with the reset input asserted puts every register of the engine at its reset value (70_reset_and_hazards.md
R191). -/
theorem step_of_reset {s t : State} (hr : s.nextEvent.isReset = true) (h : step s = .next t) :
    t = { resetEngine s.popEvent with host := t.host } := by
  rcases step_cases h with ⟨-, ht⟩ | ⟨he, -⟩ | ⟨he, -⟩
  · exact ht
  · rw [he] at hr
    cases hr
  · rw [he] at hr
    cases hr

/-- Settles O17: the step of the loss, the refusal while it is recorded, and the reset value of the record. -/
theorem powerLossNeedsReset : Obligations.PowerLossNeedsReset := by
  unfold Obligations.PowerLossNeedsReset
  refine ⟨fun _ => step_powerLoss, fun _ => step_refused_of_powerLost, fun s t hr h => ?_⟩
  rw [step_of_reset hr h]
  rfl

end Sys2Proof.Machine
end

section
/-! Several instances: their numbers, their windows and their steps (spec/60_exceptions.md R182, spec/00_scope.md
R8). -/
namespace Sys2Proof.Machine

/-- A step of a platform is a step of one engine, which alone is replaced (R182). -/
theorem stepAt_next {p q : Platform} {k : Nat} (h : p.stepAt k = .next q) :
    (p[k]? = none ∧ q = p) ∨ ∃ s t, p[k]? = some s ∧ step s = .next t ∧ q = p.set k t := by
  unfold Platform.stepAt at h
  split at h
  next hp => exact .inl ⟨hp, (Host.Outcome.next.inj h).symm⟩
  next s hp =>
    split at h
    next t ht => exact .inr ⟨s, t, hp, ht, (Host.Outcome.next.inj h).symm⟩
    · cases h
    · cases h

/-- A step of one engine leaves the others. -/
theorem stepAt_getElem?_ne {p q : Platform} {k j : Nat} (h : p.stepAt k = .next q) (hj : j ≠ k) : q[j]? = p[j]? := by
  rcases stepAt_next h with ⟨-, rfl⟩ | ⟨s, t, -, -, rfl⟩
  · rfl
  · exact List.getElem?_set_ne hj.symm

theorem stepAt_length {p q : Platform} {k : Nat} (h : p.stepAt k = .next q) : q.length = p.length := by
  rcases stepAt_next h with ⟨-, rfl⟩ | ⟨s, t, -, -, rfl⟩
  · rfl
  · exact List.length_set

/-- No command writes the engine's number (log 13). -/
theorem complete_inst {c : Word} {s t : State} (h : complete c s = .next t) : t.inst = s.inst := by
  rcases complete_cases c s with ⟨i, hd, -⟩ | ⟨r, -, he⟩
  · rw [complete_ok hd] at h
    have hframe := exec_frame h
    cases i with
    | nop | sm3Init | sm3Write _ | sm3Sum | sm3Compress | ptDecode | ptEncode _ => rw [show t = _ from hframe]
  · cases h.symm.trans he
    rfl

/-- No step changes the number of its engine: it is no register, and neither reset nor the host reaches
it. -/
theorem step_inst {s t : State} (h : step s = .next t) : t.inst = s.inst := by
  cases hr : s.nextEvent.isReset with
  | true =>
    rw [step_of_reset hr h]
    rfl
  | false =>
    rcases step_cases_of_not_reset hr h with ⟨c, -, hc⟩ | ⟨-, r, w, ht⟩ | ht
    · exact complete_inst (s := s.popEvent) hc
    · rw [ht, writeReg_frame]
      rfl
    · rw [ht]

/-- From reset the instances are numbered by their places (log 13). -/
theorem reset_getElem? {k : Nat} {s : State} (h : Platform.reset[k]? = some s) :
    s = { State.reset with inst := k } := by
  rw [Platform.reset, List.getElem?_map, Option.map_eq_some_iff] at h
  obtain ⟨n, hn, rfl⟩ := h
  obtain ⟨hlt, rfl⟩ := List.getElem?_eq_some_iff.1 hn
  rw [List.getElem_range]

/-- The window of an engine ends before that of a later one begins (R8; log 12). -/
theorem engineBase_add_le {i j : Nat} (h : i < j) : Config.engineBase i + 0x400 ≤ Config.engineBase j := by
  have := engineBaseIndex_lt h
  simp only [Config.engineBase, Config.windowBytes]
  omega

/-- Settles O33: a step replaces one engine of the list and keeps its number, and windows stand in the order of the
numbers. -/
theorem instancesAreIndependent : Obligations.InstancesAreIndependent := by
  unfold Obligations.InstancesAreIndependent
  refine ⟨fun p q k j h hj => ⟨stepAt_getElem?_ne h hj, stepAt_length h⟩, fun _ _ => step_inst,
    fun _ _ => reset_getElem?, fun i j h => ?_⟩
  rcases Nat.lt_or_gt_of_ne h with h | h
  · exact .inl (engineBase_add_le h)
  · exact .inr (engineBase_add_le h)

end Sys2Proof.Machine
end

section
/-! The reset values and the reset input (spec/70_reset_and_hazards.md R190, R191). -/
namespace Sys2Proof.Machine

/-- Settles O14: the registers by evaluation at the reset state, the SM3 part from what SM3_INIT performs. -/
theorem resetValues : Obligations.ResetValues := by
  unfold Obligations.ResetValues
  have hsm3 : ∀ s t, exec .sm3Init s = .next t →
      t.v = State.reset.v ∧ t.buf = State.reset.buf ∧ t.len = State.reset.len := by
    intro s t h
    rw [exec_next h, perform_sm3Init, finish_ok]
    exact ⟨rfl, rfl, rfl⟩
  refine ⟨rfl, rfl, rfl, ?_, ?_, ?_, rfl, rfl, rfl, ?_, rfl, rfl, hsm3⟩
  · decide
  · decide
  · decide
  · decide

/-- A step with reset held is a turn of the host at the reset engine, pending command and power or
not (R191). -/
theorem step_resetHeld {s : State} (h : s.nextEvent = .resetHeld) : step s = resetHeldStep s.popEvent := by
  rw [step, h, eventStep]

/-- With reset held over the turn of a host, its access is refused and its local operation goes on at the reset engine
(R191, U4; log 9). -/
theorem resetHeldStep_op {s : State} {op : HostOp} (h : s.host.nextOp = some op) :
    resetHeldStep s = if isAccess op then .refused .accessDuringReset else hostExec op (resetEngine s) := by
  rw [resetHeldStep, h]

/-- With reset held, a host that makes no operation is no obstacle (log 9). -/
theorem resetHeldStep_idle {s : State} (h : s.host.nextOp = none) : resetHeldStep s = .next (resetEngine s) := by
  rw [resetHeldStep, h]

/-- Settles O15: every step with reset ends at `resetEngine` but for the host, and with reset held the host's next
operation decides whether the step is refused. -/
theorem resetEvent : Obligations.ResetEvent := by
  unfold Obligations.ResetEvent
  refine ⟨fun s => step_resetBetween, fun s t hr h => ?_, fun s op he hop => ?_, fun s he hop => ?_⟩
  · rw [step_of_reset hr h]
    exact ⟨rfl, rfl⟩
  · rw [step_resetHeld he, resetHeldStep_op (s := s.popEvent) hop]
    exact ⟨fun ha => if_pos ha, fun ha => if_neg (ne_true_of_eq_false ha)⟩
  · rw [step_resetHeld he]
    exact resetHeldStep_idle hop

/-- Settles O16: without reset the step is the completion of the pending word, or no write reaches the busy engine and
the word stays. -/
theorem onlyResetAbandonsACommand : Obligations.OnlyResetAbandonsACommand := by
  unfold Obligations.OnlyResetAbandonsACommand
  intro s t c hp hr h
  rcases step_cases_of_not_reset hr h with ⟨c', hdue, hc⟩ | ⟨⟨hidle, -⟩, -⟩ | ht
  · cases hp.symm.trans hdue.pending_eq
    exact .inr hc
  · cases hp.symm.trans ((not_busy_iff s).1 hidle)
  · rw [ht]
    exact .inl hp

end Sys2Proof.Machine
end

section
/-! The completion after the LATENCY: the same result whatever its length and whatever the host does, and the end of a
halted host's run (spec/70_reset_and_hazards.md R197, R198, spec/20_memory.md R57). -/
namespace Sys2Proof.Machine

/-- Every word completes (spec/42_control.md R150, R152). -/
theorem exists_complete (c : Word) (s : State) : ∃ t, complete c s = .next t := by
  rcases complete_cases c s with ⟨i, -, h⟩ | ⟨r, -, h⟩
  · exact ⟨_, h⟩
  · exact ⟨_, h⟩

/-- A completion empties PENDING (R150). -/
theorem complete_pending {c : Word} {s t : State} (h : complete c s = .next t) : t.pending = none := by
  obtain ⟨r, rfl, -⟩ := complete_next h
  exact finish_pending s r

/-- Settles O11: the steps within the LATENCY change only what no completion reads or writes, so the completion after
them is the completion at once. -/
theorem resultIndependentOfLatency : Obligations.ResultIndependentOfLatency := by
  unfold Obligations.ResultIndependentOfLatency
  intro s t c hp hl he h
  obtain ⟨w, hw, ht⟩ := (steps_succ_last s.wait s t).1 h
  have hwait := steps_within_latency s.wait hw hp le_rfl hl he
  rw [Nat.sub_self] at hwait
  generalize w.berr = b, w.draws = d, w.host = a at hwait
  subst hwait
  have hdue : ({ s with berr := b, wait := 0, draws := d, env := s.env.drop s.wait, host := a } : State).Due c :=
    ⟨hp, rfl, nextEvent_quiet fun e hm => he e (List.mem_of_mem_drop hm), hl⟩
  obtain ⟨u, hu⟩ := exists_complete c s
  have hlate := complete_with b 0 d (s.env.drop s.wait).tail a hu
  cases ht.symm.trans ((step_due hdue).trans hlate)
  exact ⟨u, hu, by rw [List.tail_drop]⟩

/-- While the engine and the host are alone there is no event to take (log 9). -/
theorem popEvent_of_quiet {s : State} (hq : s.Quiet) : s.popEvent = s := by
  rw [State.popEvent, hq.env_nil, List.tail_nil, ← hq.env_nil]

theorem nextEvent_of_quiet {s : State} (hq : s.Quiet) : s.nextEvent = .quiet := by
  rw [State.nextEvent, hq.env_nil, List.headD_nil]

/-- A halted host has no operation to make (log 7). -/
theorem nextOp_of_halted {h : HostAgent} (hh : h.halted = true) : h.nextOp = none := if_pos hh

/-- A quiet step within the LATENCY, with a halted host, counts the LATENCY down (R150; log 7, 8). -/
theorem step_waiting_of_halted {s : State} {c : Word} {k : Nat} (hp : s.pending = some c) (hw : s.wait = k + 1)
    (hq : s.Quiet) (hh : s.host.halted = true) : step s = .next { s with wait := k } := by
  rw [step_waiting hp hw (nextEvent_of_quiet hq) hq.powered, popEvent_of_quiet hq]
  exact hostTurn_idle (nextOp_of_halted hh)

theorem steps_one (s : State) : steps 1 s = step s := by
  rw [steps]
  cases step s with
  | next _ | fault _ | refused _ => rfl

/-- With a halted host the steps of the LATENCY and one more are the completion of the pending word. -/
theorem steps_of_halted (n : Nat) {s : State} {c : Word} (hw : s.wait = n) (hp : s.pending = some c) (hq : s.Quiet)
    (hh : s.host.halted = true) : steps (n + 1) s = complete c { s with wait := 0 } := by
  induction n generalizing s with
  | zero =>
    rw [steps_one, step_due ⟨hp, hw, nextEvent_of_quiet hq, hq.powered⟩, popEvent_of_quiet hq, ← hw]
  | succ n ih =>
    rw [steps, step_waiting_of_halted hp hw hq hh, andThen_next]
    exact ih rfl hp ⟨hq.env_nil, hq.powered⟩ hh

/-- Settles O12: the run is the completion of the pending word, which empties PENDING and leaves the host halted. -/
theorem haltedHostRunEnds : Obligations.HaltedHostRunEnds := by
  unfold Obligations.HaltedHostRunEnds
  intro s c hp hq hh
  obtain ⟨t, ht⟩ := exists_complete c { s with wait := 0 }
  have hhalted : t.host.halted = true := by
    rw [complete_frame ht]
    exact hh
  exact ⟨t, (steps_of_halted s.wait rfl hp hq hh).trans ht, ⟨hhalted, complete_pending ht⟩, ht⟩

end Sys2Proof.Machine
end
